-- ==== Sys2Proof/Word.lean ====
section
/-! DEFINITION. The machine's words (spec/00_scope.md R5, R7): a byte, the 4-bit half of a byte, a register index. -/

namespace Sys2Proof

/-- One byte: register contents, a cell of program memory, a byte of either stream (R5 `XLEN`, R7). -/
abbrev Byte := BitVec 8

/-- Four bits of a parameter byte that select nothing (30_encoding.md R76). -/
abbrev Nibble := BitVec 4

/-- A register index field, `REGIDX` of R5: it always names one of the 16 registers (10_state.md R21). -/
abbrev RegIdx := BitVec 4

/-- A whole instruction word `iw = opcode ‖ parameter`, the notation of 30_encoding.md R71. -/
abbrev IWord := BitVec 16

end Sys2Proof
end

