-- ==== Sys2Proof/Syntax.lean ====
section
/-! DEFINITION. The instructions: one constructor for each of the 24 rows of spec/opcode_table.json
(30_encoding.md R75, R78, R84). Ignored bits are kept as an operand `u`, so that decoding loses no bit of a word
and "the ignored bits have no effect" (R76) is a statement about the machine (DESIGN CHOICE, safe: log 7). -/

namespace Sys2Proof

/-- The seven ways the parameter byte is read (30_encoding.md R73). -/
inductive Format where
  /-- not fetched: opcode 0x00 -/
  | z
  /-- one register index `rx = p[3:0]` -/
  | rx
  /-- a register pair `rx = p[3:0]`, `ry = p[7:4]` -/
  | rr
  /-- an 8-bit literal constant -/
  | i8
  /-- an 8-bit signed jump displacement -/
  | d8
  /-- an 8-bit register index, not masked -/
  | r8
  /-- fetched and ignored -/
  | n
deriving DecidableEq, Repr

/-- An instruction. `rx` and `ry` are the register fields of R72, `u` the ignored bits of R76, `k`, `d` and `n` the
whole parameter byte as a constant, a displacement and an unmasked register index (R74). -/
inductive Instr where
  /-- opcode 0x00, UND0 (46_reserved_opcodes.md R185) -/
  | und0
  /-- opcode 0x01, INC (41_inc_dec_mov_shift.md R110) -/
  | inc (rx : RegIdx) (u : Nibble)
  /-- opcode 0x02, DEC (R111) -/
  | dec (rx : RegIdx) (u : Nibble)
  /-- opcode 0x03, MOV (R112) -/
  | mov (rx ry : RegIdx)
  /-- opcode 0x04, MOVC (R113) -/
  | movc (k : Byte)
  /-- opcode 0x05, LSL (R114) -/
  | lsl (rx : RegIdx) (u : Nibble)
  /-- opcode 0x06, LSR (R115) -/
  | lsr (rx : RegIdx) (u : Nibble)
  /-- opcode 0x07, JMP (42_jumps.md R131) -/
  | jmp (d : Byte)
  /-- opcode 0x08, JZ (R132) -/
  | jz (d : Byte)
  /-- opcode 0x09, JNZ (R133) -/
  | jnz (d : Byte)
  /-- opcode 0x0A, JFE (R134) -/
  | jfe (d : Byte)
  /-- opcode 0x0B, RET (43_ret.md R150) -/
  | ret (u : Byte)
  /-- opcode 0x0C, ADD (44_add_sub_logic.md R155) -/
  | add (rx ry : RegIdx)
  /-- opcode 0x0D, SUB (R156) -/
  | sub (rx ry : RegIdx)
  /-- opcode 0x0E, XOR (R157) -/
  | xor (rx ry : RegIdx)
  /-- opcode 0x0F, OR (R158) -/
  | or (rx ry : RegIdx)
  /-- opcode 0x10, IN: `in` is a word of Lean, so the constructor is `inp` (45_in_out.md R171, R172) -/
  | inp (n : Byte)
  /-- opcode 0x11, OUT (R175) -/
  | out (rx : RegIdx) (u : Nibble)
  /-- NOPR, the opcode bytes 0x12 and 0x13 (46_reserved_opcodes.md R186, 30_encoding.md R78) -/
  | nopr12 (op u : Byte)
  /-- NOPR, the opcode bytes 0x14 to 0x17 -/
  | nopr14 (op u : Byte)
  /-- NOPR, the opcode bytes 0x18 to 0x1F -/
  | nopr18 (op u : Byte)
  /-- NOPR, the opcode bytes 0x20 to 0x3F -/
  | nopr20 (op u : Byte)
  /-- NOPR, the opcode bytes 0x40 to 0x7F -/
  | nopr40 (op u : Byte)
  /-- NOPR, the opcode bytes 0x80 to 0xFF -/
  | nopr80 (op u : Byte)
deriving DecidableEq, Repr

end Sys2Proof
end

