-- ==== Sys2Proof/WellFormed.lean ====
section
/-! DEFINITION. Which terms of `Instr` stand for an encoding. Register fields are right by their type; the one thing
to check is that a reserved no-op's opcode byte lies in its row's range (spec/30_encoding.md R78). -/

namespace Sys2Proof

/-- The opcode byte lies in the range with these match and mask bits (R78, R84). -/
def inRange (op matchBits maskBits : Byte) : Bool := op &&& maskBits == matchBits

/-- The instruction is one the encoding of 30_encoding.md R75 and R78 has. -/
def Instr.wellFormed : Instr → Bool
  | .und0 => true
  | .inc _ _ => true
  | .dec _ _ => true
  | .mov _ _ => true
  | .movc _ => true
  | .lsl _ _ => true
  | .lsr _ _ => true
  | .jmp _ => true
  | .jz _ => true
  | .jnz _ => true
  | .jfe _ => true
  | .ret _ => true
  | .add _ _ => true
  | .sub _ _ => true
  | .xor _ _ => true
  | .or _ _ => true
  | .inp _ => true
  | .out _ _ => true
  | .nopr12 op _ => inRange op 0x12 0xFE
  | .nopr14 op _ => inRange op 0x14 0xFC
  | .nopr18 op _ => inRange op 0x18 0xF8
  | .nopr20 op _ => inRange op 0x20 0xE0
  | .nopr40 op _ => inRange op 0x40 0xC0
  | .nopr80 op _ => inRange op 0x80 0x80

end Sys2Proof
end

