-- ==== Sys2Proof/Decode.lean ====
section
/-! DEFINITION. Decoding and encoding (spec/30_encoding.md): field extraction R72, the opcode map R75 with the ranges
of R78, the one layout of R70, and the opcode table R84. Decoding is total on any bytes; it refuses by name the two
cases in which the step ends before it has an instruction (40_step_cycle.md R91, R93). -/

namespace Sys2Proof

/-- `rx`, the LOW four bits of the parameter (R72). -/
def loNibble (p : Byte) : Nibble := p.extractLsb' 0 4

/-- `ry`, the HIGH four bits of the parameter (R72). -/
def hiNibble (p : Byte) : Nibble := p.extractLsb' 4 4

/-- The parameter byte with `ry` above `rx` (R71). -/
def joinNibbles (ry rx : Nibble) : Byte := ry ++ rx

/-- A reserved no-op's row: the first of the ranges of R78 that holds the opcode byte, the rest being 0x80 to 0xFF. -/
def decodeReserved (op p : Byte) : Instr :=
  if inRange op 0x12 0xFE then .nopr12 op p
  else if inRange op 0x14 0xFC then .nopr14 op p
  else if inRange op 0x18 0xF8 then .nopr18 op p
  else if inRange op 0x20 0xE0 then .nopr20 op p
  else if inRange op 0x40 0xC0 then .nopr40 op p
  else .nopr80 op p

/-- The instruction of an opcode byte and a parameter byte: the opcode byte alone selects it (R75, R79). -/
def decodePair (op p : Byte) : Instr :=
  match op.toNat with
  | 0x00 => .und0
  | 0x01 => .inc (loNibble p) (hiNibble p)
  | 0x02 => .dec (loNibble p) (hiNibble p)
  | 0x03 => .mov (loNibble p) (hiNibble p)
  | 0x04 => .movc p
  | 0x05 => .lsl (loNibble p) (hiNibble p)
  | 0x06 => .lsr (loNibble p) (hiNibble p)
  | 0x07 => .jmp p
  | 0x08 => .jz p
  | 0x09 => .jnz p
  | 0x0A => .jfe p
  | 0x0B => .ret p
  | 0x0C => .add (loNibble p) (hiNibble p)
  | 0x0D => .sub (loNibble p) (hiNibble p)
  | 0x0E => .xor (loNibble p) (hiNibble p)
  | 0x0F => .or (loNibble p) (hiNibble p)
  | 0x10 => .inp p
  | 0x11 => .out (loNibble p) (hiNibble p)
  | _ => decodeReserved op p

/-- Why bytes hold no instruction. -/
inductive DecodeError where
  /-- there is no opcode byte (40_step_cycle.md R91) -/
  | noOpcode
  /-- the opcode byte is not 0x00 and there is no parameter byte (R93) -/
  | noParameter
deriving DecidableEq, Repr

/-- The instruction at the front of the bytes and the bytes after it. Opcode 0x00 takes no parameter byte (R70). -/
def decode : List Byte → Except DecodeError (Instr × List Byte)
  | [] => .error .noOpcode
  | [op] => if op = 0 then .ok (.und0, []) else .error .noParameter
  | op :: p :: rest => if op = 0 then .ok (.und0, p :: rest) else .ok (decodePair op p, rest)

/-- The opcode byte of an instruction (R75, R78). -/
def Instr.opcode : Instr → Byte
  | .und0 => 0x00
  | .inc _ _ => 0x01
  | .dec _ _ => 0x02
  | .mov _ _ => 0x03
  | .movc _ => 0x04
  | .lsl _ _ => 0x05
  | .lsr _ _ => 0x06
  | .jmp _ => 0x07
  | .jz _ => 0x08
  | .jnz _ => 0x09
  | .jfe _ => 0x0A
  | .ret _ => 0x0B
  | .add _ _ => 0x0C
  | .sub _ _ => 0x0D
  | .xor _ _ => 0x0E
  | .or _ _ => 0x0F
  | .inp _ => 0x10
  | .out _ _ => 0x11
  | .nopr12 op _ => op
  | .nopr14 op _ => op
  | .nopr18 op _ => op
  | .nopr20 op _ => op
  | .nopr40 op _ => op
  | .nopr80 op _ => op

/-- The parameter byte of an instruction, none for opcode 0x00, whose parameter is not part of it (R70, R73, R74). -/
def Instr.parameter : Instr → Option Byte
  | .und0 => none
  | .inc rx u => some (joinNibbles u rx)
  | .dec rx u => some (joinNibbles u rx)
  | .mov rx ry => some (joinNibbles ry rx)
  | .movc k => some k
  | .lsl rx u => some (joinNibbles u rx)
  | .lsr rx u => some (joinNibbles u rx)
  | .jmp d => some d
  | .jz d => some d
  | .jnz d => some d
  | .jfe d => some d
  | .ret u => some u
  | .add rx ry => some (joinNibbles ry rx)
  | .sub rx ry => some (joinNibbles ry rx)
  | .xor rx ry => some (joinNibbles ry rx)
  | .or rx ry => some (joinNibbles ry rx)
  | .inp n => some n
  | .out rx u => some (joinNibbles u rx)
  | .nopr12 _ u => some u
  | .nopr14 _ u => some u
  | .nopr18 _ u => some u
  | .nopr20 _ u => some u
  | .nopr40 _ u => some u
  | .nopr80 _ u => some u

/-- The bytes of an instruction, opcode first (R70). -/
def encode (i : Instr) : List Byte := i.opcode :: i.parameter.toList

/-- The instruction with its ignored bits written 0, as an assembler writes them (R76, R82). -/
def Instr.clearIgnored : Instr → Instr
  | .und0 => .und0
  | .inc rx _ => .inc rx 0
  | .dec rx _ => .dec rx 0
  | .mov rx ry => .mov rx ry
  | .movc k => .movc k
  | .lsl rx _ => .lsl rx 0
  | .lsr rx _ => .lsr rx 0
  | .jmp d => .jmp d
  | .jz d => .jz d
  | .jnz d => .jnz d
  | .jfe d => .jfe d
  | .ret _ => .ret 0
  | .add rx ry => .add rx ry
  | .sub rx ry => .sub rx ry
  | .xor rx ry => .xor rx ry
  | .or rx ry => .or rx ry
  | .inp n => .inp n
  | .out rx _ => .out rx 0
  | .nopr12 op _ => .nopr12 op 0
  | .nopr14 op _ => .nopr14 op 0
  | .nopr18 op _ => .nopr18 op 0
  | .nopr20 op _ => .nopr20 op 0
  | .nopr40 op _ => .nopr40 op 0
  | .nopr80 op _ => .nopr80 op 0

/-- The displacement byte an assembler writes for a displacement `d`, `d mod 256` (R82). -/
def dispByte (d : Int) : Byte := BitVec.ofInt 8 d

/-- `iw = opcode ‖ parameter` (R71). -/
def instrWord (op p : Byte) : IWord := op ++ p

/-- One row of the opcode table: a word matches it when `iw & mask = match` (R84). -/
structure OpcodeRow where
  mnemonic : String
  format : Format
  matchBits : IWord
  maskBits : IWord
deriving DecidableEq, Repr

/-- The word matches the row (R84). -/
def OpcodeRow.holds (r : OpcodeRow) (iw : IWord) : Bool := iw &&& r.maskBits == r.matchBits

/-- The row of spec/opcode_table.json an instruction belongs to (R75, R78). -/
def Instr.row : Instr → OpcodeRow
  | .und0 => ⟨"UND0", .z, 0x0000, 0xFF00⟩
  | .inc _ _ => ⟨"INC", .rx, 0x0100, 0xFF00⟩
  | .dec _ _ => ⟨"DEC", .rx, 0x0200, 0xFF00⟩
  | .mov _ _ => ⟨"MOV", .rr, 0x0300, 0xFF00⟩
  | .movc _ => ⟨"MOVC", .i8, 0x0400, 0xFF00⟩
  | .lsl _ _ => ⟨"LSL", .rx, 0x0500, 0xFF00⟩
  | .lsr _ _ => ⟨"LSR", .rx, 0x0600, 0xFF00⟩
  | .jmp _ => ⟨"JMP", .d8, 0x0700, 0xFF00⟩
  | .jz _ => ⟨"JZ", .d8, 0x0800, 0xFF00⟩
  | .jnz _ => ⟨"JNZ", .d8, 0x0900, 0xFF00⟩
  | .jfe _ => ⟨"JFE", .d8, 0x0A00, 0xFF00⟩
  | .ret _ => ⟨"RET", .n, 0x0B00, 0xFF00⟩
  | .add _ _ => ⟨"ADD", .rr, 0x0C00, 0xFF00⟩
  | .sub _ _ => ⟨"SUB", .rr, 0x0D00, 0xFF00⟩
  | .xor _ _ => ⟨"XOR", .rr, 0x0E00, 0xFF00⟩
  | .or _ _ => ⟨"OR", .rr, 0x0F00, 0xFF00⟩
  | .inp _ => ⟨"IN", .r8, 0x1000, 0xFF00⟩
  | .out _ _ => ⟨"OUT", .rx, 0x1100, 0xFF00⟩
  | .nopr12 _ _ => ⟨"NOPR", .n, 0x1200, 0xFE00⟩
  | .nopr14 _ _ => ⟨"NOPR", .n, 0x1400, 0xFC00⟩
  | .nopr18 _ _ => ⟨"NOPR", .n, 0x1800, 0xF800⟩
  | .nopr20 _ _ => ⟨"NOPR", .n, 0x2000, 0xE000⟩
  | .nopr40 _ _ => ⟨"NOPR", .n, 0x4000, 0xC000⟩
  | .nopr80 _ _ => ⟨"NOPR", .n, 0x8000, 0x8000⟩

/-- The 24 rows of spec/opcode_table.json, in its order (R84): the row of the instruction with each row's match bits. -/
def opcodeTable : List OpcodeRow :=
  [0x00, 0x01, 0x02, 0x03, 0x04, 0x05, 0x06, 0x07, 0x08, 0x09, 0x0A, 0x0B, 0x0C, 0x0D, 0x0E, 0x0F, 0x10, 0x11,
    0x12, 0x14, 0x18, 0x20, 0x40, 0x80].map fun op => (decodePair op 0).row

/-- The instruction decoded from the `nbits` bits `w`, numbered as spec/opcode_table.json numbers them: `w` is `iw` of
R71, the opcode in bits 15 to 8, so the first byte in memory is the high one. -/
def decodeTableWord (nbits w : Nat) : Option Instr :=
  let iw := w % 2 ^ nbits
  match decode [BitVec.ofNat 8 (iw / 256), BitVec.ofNat 8 iw] with
  | .ok (i, _) => some i
  | .error _ => none

end Sys2Proof
end

