-- ==== Sys2Proof/Config.lean ====
section
/-! DEFINITION. The fixed parameters of the hardware (spec/00_scope.md R5). None is configurable, and nothing is
left as a free value: with the decisions of 92_eei_decisions.md taken the step is a function (40_step_cycle.md R100). -/

namespace Sys2Proof.Config

/-- `NREG`, the number of general registers (R5). -/
abbrev regCount : Nat := 16

/-- `MEMSIZE`, the bytes of program memory, at addresses 0 to 255 (R5, 20_memory.md R50). -/
abbrev memSize : Nat := 256

/-- `ILEN`, the bytes an executed instruction advances `pc` by (R5, 40_step_cycle.md R94). -/
abbrev instrLen : Int := 2

/-- What an address of program memory that the image does not list reads as: the zero padding of
20_memory.md R50 (log 4). -/
abbrev paddingByte : Byte := 0

end Sys2Proof.Config
end

