-- ==== Sys2Proof/Machine/State.lean ====
section
/-! DEFINITION. The state of the machine as plain data (spec/10_state.md R44), the reasons a step can stop, and the
state after reset (R41). -/

namespace Sys2Proof.Machine

/-- The run status (10_state.md R36); its numeric codes are 60_exceptions.md R201. -/
inductive Status where
  /-- code 0: the core runs -/
  | running
  /-- code 1: the pointer left program memory (R91), a clean halt -/
  | instructionsExhausted
  /-- code 2: the opcode byte was 0x00 (R92, R185), a clean halt -/
  | undefinedOpcode
  /-- code 3: an opcode byte not 0x00 at address 255 (R93), a clean halt -/
  | missingParameter
  /-- code 4: RET (R150), a clean halt -/
  | halted
  /-- code 5: `Faulted(InRegIndex)` (R206). No step of the model leads to a state with it: the step ends in the fault
  outcome `Fault.inRegIndex`, since no rule gives any other state element after it (log 2). -/
  | faultedInRegIndex
deriving DecidableEq, Repr

/-- Why the machine stops without a next state. -/
inductive Fault where
  /-- Raised by IN (45_in_out.md R172, 60_exceptions.md R205) when an input byte is available and the parameter byte `p`
  is 16 or more: the one fault of the spec, which the document leaves undefined. Safe: nothing is claimed of what
  follows (log 2). -/
  | inRegIndex (p : Byte)
  /-- Raised by `step` in a terminal state, whose status it carries: such a state has no step (60_exceptions.md R213).
  Safe: a stuck state, from which nothing follows (log 1). -/
  | terminal (st : Status)
deriving DecidableEq, Repr

/-- Why an instruction has no meaning. -/
inductive Refusal where
  /-- Raised by an arm of `exec` whose instruction has no meaning yet; no arm of this model raises it. Safe: nothing is
  claimed of the instruction. -/
  | notModelled (mnemonic : String)
deriving DecidableEq, Repr

/-- Program memory: the bytes of the image that differ from the zero padding, at strictly rising addresses below 256
(20_memory.md R50; the form is `Memory.wf`). -/
abbrev Memory := List Host.Cell

/-- The state of 10_state.md R44, with the two parameters of a run `mem` and `input` (00_scope.md R6), which no step
changes (log 3). -/
structure State where
  /-- the general registers `x[0]` to `x[15]` (R20) -/
  regs : Vector Byte Config.regCount
  /-- the instruction pointer, an integer (R30, log 6) -/
  pc : Int
  /-- the condition flag, true for 1 "zero" (R25) -/
  flag : Bool
  /-- the input-exhaustion latch (R27) -/
  inx : Bool
  /-- the run status (R36) -/
  status : Status
  /-- the program memory image, fixed during a run (20_memory.md R50) -/
  mem : Memory
  /-- the input sequence, fixed during a run (20_memory.md R60) -/
  input : List Byte
  /-- the input cursor (R37) -/
  ic : Nat
  /-- the output emitted so far, oldest first (R38) -/
  out : List Byte
deriving DecidableEq, Repr

/-- The state after reset (R41). The program image and the input are the host's to supply (R41, R232): here the empty
image, which reads as zero padding everywhere, and the empty input (DESIGN CHOICE, unsafe: log 4). -/
def State.reset : State where
  regs := Vector.replicate Config.regCount 0
  pc := 0
  flag := false
  inx := false
  status := .running
  mem := []
  input := []
  ic := 0
  out := []

end Sys2Proof.Machine
end

