-- ==== Sys2Proof/Machine/Ops.lean ====
section
/-! DEFINITION. The named operations over program memory, registers, the pointer, the two streams and the status
(spec/00_scope.md R10 to R12), ending a step abnormally, fetching an instruction (40_step_cycle.md R91 to R93), and
what the host does before a run (70_reset_and_hazards.md R230 to R233). -/

namespace Sys2Proof.Machine

/-- `mem[a]` (00_scope.md R11): the listed byte, else the zero padding (20_memory.md R50). -/
def Memory.read : Memory → Nat → Byte
  | [], _ => Config.paddingByte
  | (b, v) :: rest, a => if b = a then v else Memory.read rest a

/-- The memory with byte `v` at address `a`, in canonical form. No instruction writes program memory (20_memory.md
R52): only the host's loading uses it (70_reset_and_hazards.md R233). -/
def Memory.write : Memory → Nat → Byte → Memory
  | [], a, v => if v = Config.paddingByte then [] else [(a, v)]
  | (b, w) :: rest, a, v =>
    if a < b then (if v = Config.paddingByte then (b, w) :: rest else (a, v) :: (b, w) :: rest)
    else if a = b then (if v = Config.paddingByte then rest else (a, v) :: rest)
    else (b, w) :: Memory.write rest a v

/-- The cells lie at strictly rising addresses from `lo` on, inside the 256 bytes, and none lists the padding byte. -/
def Memory.wfFrom : Nat → Memory → Bool
  | _, [] => true
  | lo, (a, v) :: rest =>
    decide (lo ≤ a) && decide (a < Config.memSize) && decide (v ≠ Config.paddingByte) && Memory.wfFrom (a + 1) rest

/-- The canonical form of a program memory. -/
def Memory.wf (m : Memory) : Bool := Memory.wfFrom 0 m

/-- The cells of an image whose first byte stands at address `a`. -/
def Memory.ofImageFrom : Nat → List Byte → Memory
  | _, [] => []
  | a, v :: rest =>
    if v = Config.paddingByte then Memory.ofImageFrom (a + 1) rest else (a, v) :: Memory.ofImageFrom (a + 1) rest

/-- The program memory of an image, padded with zero bytes (20_memory.md R50). -/
def Memory.ofImage (image : List Byte) : Memory := Memory.ofImageFrom 0 image

/-- `x[i]`, a register read (00_scope.md R10). -/
def State.getReg (s : State) (i : RegIdx) : Byte := s.regs[i.toNat]'i.isLt

/-- `x[i] <- v`, a register write (R10). -/
def State.setReg (s : State) (i : RegIdx) (v : Byte) : State := { s with regs := s.regs.set i.toNat v i.isLt }

/-- `pc <- t` (R10). -/
def State.setPc (s : State) (t : Int) : State := { s with pc := t }

/-- `pc <- a + 2`, the advance of 40_step_cycle.md R94. -/
def State.advance (s : State) : State := s.setPc (s.pc + Config.instrLen)

/-- `flag <- z` (R10). -/
def State.setFlag (s : State) (z : Bool) : State := { s with flag := z }

/-- `inx <- 1`: the latch is only ever set (10_state.md R27). -/
def State.setInx (s : State) : State := { s with inx := true }

/-- `InAvail()`: the cursor has a byte remaining (10_state.md R37). -/
def State.inAvail (s : State) : Bool := decide (s.ic < s.input.length)

/-- The byte at the cursor, none where no byte remains (10_state.md R37, 70_reset_and_hazards.md R235 `in_data`). -/
def State.inData (s : State) : Option Byte := s.input[s.ic]?

/-- The state side of `InTake()`: the cursor advances by one (10_state.md R37). -/
def State.takeInput (s : State) : State := { s with ic := s.ic + 1 }

/-- `Out(v)`: the byte is appended, always (10_state.md R38, 20_memory.md R62). -/
def State.emit (s : State) (v : Byte) : State := { s with out := s.out ++ [v] }

/-- `halt <Reason>`: the status becomes the terminal value and nothing else changes (00_scope.md R12, 60_exceptions.md
R212). This machine has no other exception entry: nothing is saved and control goes nowhere. -/
def State.halt (s : State) (reason : Status) : State := { s with status := reason }

/-- The address is in bounds, `0 <= a <= 255` (10_state.md R30). -/
abbrev inBounds (a : Int) : Prop := 0 ≤ a ∧ a ≤ 255

/-- The bytes the fetch can see at the pointer: none out of bounds, one at address 255, else the opcode and the
parameter byte (40_step_cycle.md R91, R93; 20_memory.md R51, R53). -/
def State.fetchWindow (s : State) : List Byte :=
  if inBounds s.pc then
    s.mem.read s.pc.toNat :: (if inBounds (s.pc + 1) then [s.mem.read (s.pc + 1).toNat] else [])
  else []

/-- The fetch phase: the instruction at the pointer, or the reason the step halts before it has one (40_step_cycle.md
R91, R93). A zero opcode is the instruction `und0`, whose effect is the halt of R92 (46_reserved_opcodes.md R185). -/
def State.fetch (s : State) : Except Status Instr :=
  match decode s.fetchWindow with
  | .ok (i, _) => .ok i
  | .error .noOpcode => .error .instructionsExhausted
  | .error .noParameter => .error .missingParameter

/-- Reset, in any state: every element as in 10_state.md R41; the image and the input are kept (70_reset_and_hazards.md
R230, R232). -/
def State.applyReset (s : State) : State := { State.reset with mem := s.mem, input := s.input }

/-- The host's duties before reset is released (70_reset_and_hazards.md R233): the image padded to 256 bytes, the input
fixed, the sink emptied. An image longer than 256 bytes cannot be loaded, and the run does not start (log 16). -/
def State.boot (image input : List Byte) : Option State :=
  if image.length ≤ Config.memSize then
    some { State.reset with mem := Memory.ofImage image, input := input }
  else none

end Sys2Proof.Machine
end

