-- ==== Sys2Proof/Machine/Operands.lean ====
section
/-! DEFINITION. The operand forms and the arithmetic of the machine (spec/30_encoding.md R74; 00_scope.md R8, R9;
42_jumps.md R130; 44_add_sub_logic.md R160). -/

namespace Sys2Proof.Machine

/-- `sdisp(p)`, the signed reading of a displacement byte (00_scope.md R9, 30_encoding.md R74 (b)). -/
def sdisp (p : Byte) : Int := if p.toNat ≤ 127 then (p.toNat : Int) else (p.toNat : Int) - 256

/-- The target of a taken jump at address `a`, `a + sdisp(p)`, which does not wrap (42_jumps.md R130). -/
def jumpTarget (a : Int) (p : Byte) : Int := a + sdisp p

/-- The register IN's whole parameter byte names, if there is one (30_encoding.md R74 (c), 45_in_out.md R172). -/
def inRegister (p : Byte) : Option RegIdx := if p.toNat ≤ 15 then some (p.setWidth 4) else none

/-- `a +8 b` (00_scope.md R8). -/
def add8 (a b : Byte) : Byte := a + b

/-- `a -8 b` (00_scope.md R8). -/
def sub8 (a b : Byte) : Byte := a - b

/-- `a ^ b` (00_scope.md R8). -/
def xor8 (a b : Byte) : Byte := a ^^^ b

/-- `a | b` (00_scope.md R8). -/
def or8 (a b : Byte) : Byte := a ||| b

/-- `shl1(a)`: bit 7 is lost, bit 0 becomes 0 (00_scope.md R8). -/
def shl1 (a : Byte) : Byte := a <<< 1

/-- `shr1(a)`: bit 0 is lost, bit 7 becomes 0 (00_scope.md R8). -/
def shr1 (a : Byte) : Byte := a >>> 1

/-- The pointer of a taken jump: the state's pointer is the jump's own address (42_jumps.md R130, log 8). -/
def State.jump (s : State) (p : Byte) : State := s.setPc (jumpTarget s.pc p)

end Sys2Proof.Machine
end

