-- ==== Sys2Proof/Machine/Flags.lean ====
section
/-! DEFINITION. The recomputation of `flag`, the last action of every completed instruction (spec/40_step_cycle.md
R98). -/

namespace Sys2Proof.Machine

/-- `zero(a)` (00_scope.md R8). -/
def zero (a : Byte) : Bool := a == 0

/-- `flag <- zero(x[i])`, reading the register after the instruction's write (R98). -/
def State.flagFrom (s : State) (i : RegIdx) : State := s.setFlag (zero (s.getReg i))

/-- `flag <- 0`, what every instruction outside the ten flag-setting ones ends with (R98). -/
def State.clearFlag (s : State) : State := s.setFlag false

/-- What the ten flag-setting instructions share: the pointer advances, one register is written, the flag is computed
from it (41_inc_dec_mov_shift.md R116, 44_add_sub_logic.md R159). -/
def State.writeResult (s : State) (rd : RegIdx) (v : Byte) : State := (s.advance.setReg rd v).flagFrom rd

/-- What the four jumps share: taken to the target, else past the jump; the flag is cleared either way (42_jumps.md
R135). -/
def State.branch (s : State) (taken : Bool) (d : Byte) : State :=
  (if taken then s.jump d else s.advance).clearFlag

/-- What a reserved no-op does: the pointer advances and the flag is cleared (46_reserved_opcodes.md R186). -/
def State.noOp (s : State) : State := s.advance.clearFlag

end Sys2Proof.Machine
end

