-- ==== Sys2Proof/Machine/AddSubLogic.lean ====
section
/-! DEFINITION. ADD, SUB, XOR, OR (spec/44_add_sub_logic.md). Both sources are read before the destination is written
(R159). -/

namespace Sys2Proof.Machine

/-- ADD (R155). -/
def execAdd (rx ry : RegIdx) (s : State) : Host.Outcome State Fault Refusal :=
  .next (s.writeResult rx (add8 (s.getReg rx) (s.getReg ry)))

/-- SUB (R156). -/
def execSub (rx ry : RegIdx) (s : State) : Host.Outcome State Fault Refusal :=
  .next (s.writeResult rx (sub8 (s.getReg rx) (s.getReg ry)))

/-- XOR (R157). -/
def execXor (rx ry : RegIdx) (s : State) : Host.Outcome State Fault Refusal :=
  .next (s.writeResult rx (xor8 (s.getReg rx) (s.getReg ry)))

/-- OR (R158). -/
def execOr (rx ry : RegIdx) (s : State) : Host.Outcome State Fault Refusal :=
  .next (s.writeResult rx (or8 (s.getReg rx) (s.getReg ry)))

end Sys2Proof.Machine
end

