-- ==== Sys2Proof/Machine/InOut.lean ====
section
/-! DEFINITION. IN and OUT (spec/45_in_out.md). -/

namespace Sys2Proof.Machine

/-- IN: the test is on the cursor, the whole byte is the register index, and with a byte available an index of 16 or
more is the fault of R172; with none available the index is not used (R171, R172). -/
def execIn (n : Byte) (s : State) : Host.Outcome State Fault Refusal :=
  match s.inData with
  | some b =>
    match inRegister n with
    | some rd => .next ((s.advance.setReg rd b).takeInput.clearFlag)
    | none => .fault (.inRegIndex n)
  | none => .next (s.advance.setInx.clearFlag)

/-- OUT (R175). -/
def execOut (rx : RegIdx) (_u : Nibble) (s : State) : Host.Outcome State Fault Refusal :=
  .next ((s.advance.emit (s.getReg rx)).clearFlag)

end Sys2Proof.Machine
end

