-- ==== Sys2Proof/Machine/IncDecMovShift.lean ====
section
/-! DEFINITION. INC, DEC, MOV, MOVC, LSL, LSR (spec/41_inc_dec_mov_shift.md). The state an instruction starts from has
`pc` at its own address (log 8). -/

namespace Sys2Proof.Machine

/-- INC (R110). -/
def execInc (rx : RegIdx) (_u : Nibble) (s : State) : Host.Outcome State Fault Refusal :=
  .next (s.writeResult rx (add8 (s.getReg rx) 1))

/-- DEC (R111). -/
def execDec (rx : RegIdx) (_u : Nibble) (s : State) : Host.Outcome State Fault Refusal :=
  .next (s.writeResult rx (sub8 (s.getReg rx) 1))

/-- MOV (R112). -/
def execMov (rx ry : RegIdx) (s : State) : Host.Outcome State Fault Refusal :=
  .next (s.writeResult rx (s.getReg ry))

/-- MOVC: the destination is always register 0 (R113). -/
def execMovc (k : Byte) (s : State) : Host.Outcome State Fault Refusal :=
  .next (s.writeResult 0 k)

/-- LSL (R114). -/
def execLsl (rx : RegIdx) (_u : Nibble) (s : State) : Host.Outcome State Fault Refusal :=
  .next (s.writeResult rx (shl1 (s.getReg rx)))

/-- LSR (R115). -/
def execLsr (rx : RegIdx) (_u : Nibble) (s : State) : Host.Outcome State Fault Refusal :=
  .next (s.writeResult rx (shr1 (s.getReg rx)))

end Sys2Proof.Machine
end

