-- ==== Sys2Proof/Machine/Jumps.lean ====
section
/-! DEFINITION. JMP, JZ, JNZ, JFE (spec/42_jumps.md). The conditions are read before the flag is cleared
(40_step_cycle.md R97). -/

namespace Sys2Proof.Machine

/-- JMP (R131). -/
def execJmp (d : Byte) (s : State) : Host.Outcome State Fault Refusal := .next (s.branch true d)

/-- JZ: taken if `flag = 1` (R132). -/
def execJz (d : Byte) (s : State) : Host.Outcome State Fault Refusal := .next (s.branch s.flag d)

/-- JNZ: taken if `flag = 0` (R133). -/
def execJnz (d : Byte) (s : State) : Host.Outcome State Fault Refusal := .next (s.branch (!s.flag) d)

/-- JFE: taken if `inx = 1` (R134). -/
def execJfe (d : Byte) (s : State) : Host.Outcome State Fault Refusal := .next (s.branch s.inx d)

end Sys2Proof.Machine
end

