-- ==== Sys2Proof/Machine/Reserved.lean ====
section
/-! DEFINITION. Opcode 0x00 and the opcodes 0x12 to 0xFF (spec/46_reserved_opcodes.md). The no-ops are all alike (R186);
each row of the opcode table has its own meaning. -/

namespace Sys2Proof.Machine

/-- UND0: the step halts; pointer and flag stay (R185). -/
def execUnd0 (s : State) : Host.Outcome State Fault Refusal := .next (s.halt .undefinedOpcode)

/-- NOPR, opcodes 0x12 and 0x13 (R186). -/
def execNopr12 (_op _u : Byte) (s : State) : Host.Outcome State Fault Refusal := .next s.noOp

/-- NOPR, opcodes 0x14 to 0x17 (R186). -/
def execNopr14 (_op _u : Byte) (s : State) : Host.Outcome State Fault Refusal := .next s.noOp

/-- NOPR, opcodes 0x18 to 0x1F (R186). -/
def execNopr18 (_op _u : Byte) (s : State) : Host.Outcome State Fault Refusal := .next s.noOp

/-- NOPR, opcodes 0x20 to 0x3F (R186). -/
def execNopr20 (_op _u : Byte) (s : State) : Host.Outcome State Fault Refusal := .next s.noOp

/-- NOPR, opcodes 0x40 to 0x7F (R186). -/
def execNopr40 (_op _u : Byte) (s : State) : Host.Outcome State Fault Refusal := .next s.noOp

/-- NOPR, opcodes 0x80 to 0xFF (R186). -/
def execNopr80 (_op _u : Byte) (s : State) : Host.Outcome State Fault Refusal := .next s.noOp

end Sys2Proof.Machine
end

