-- ==== Sys2Proof/Machine/Ret.lean ====
section
/-! DEFINITION. RET (spec/43_ret.md). -/

namespace Sys2Proof.Machine

/-- RET: the flag is cleared and the machine halts past the instruction (R150, decision D6: log 13). -/
def execRet (_u : Byte) (s : State) : Host.Outcome State Fault Refusal := .next (s.advance.clearFlag.halt .halted)

end Sys2Proof.Machine
end

