-- ==== Sys2Proof/Machine/Dispatch.lean ====
section
/-! DEFINITION. Dispatch (spec/40_step_cycle.md R96): one arm per row of the opcode table. -/

namespace Sys2Proof.Machine

def exec (i : Instr) (s : State) : Host.Outcome State Fault Refusal :=
  match i with
  | .und0 => Sys2Proof.Machine.execUnd0 s
  | .inc rx u => Sys2Proof.Machine.execInc rx u s
  | .dec rx u => Sys2Proof.Machine.execDec rx u s
  | .mov rx ry => Sys2Proof.Machine.execMov rx ry s
  | .movc k => Sys2Proof.Machine.execMovc k s
  | .lsl rx u => Sys2Proof.Machine.execLsl rx u s
  | .lsr rx u => Sys2Proof.Machine.execLsr rx u s
  | .jmp d => Sys2Proof.Machine.execJmp d s
  | .jz d => Sys2Proof.Machine.execJz d s
  | .jnz d => Sys2Proof.Machine.execJnz d s
  | .jfe d => Sys2Proof.Machine.execJfe d s
  | .ret u => Sys2Proof.Machine.execRet u s
  | .add rx ry => Sys2Proof.Machine.execAdd rx ry s
  | .sub rx ry => Sys2Proof.Machine.execSub rx ry s
  | .xor rx ry => Sys2Proof.Machine.execXor rx ry s
  | .or rx ry => Sys2Proof.Machine.execOr rx ry s
  | .inp n => Sys2Proof.Machine.execIn n s
  | .out rx u => Sys2Proof.Machine.execOut rx u s
  | .nopr12 op u => Sys2Proof.Machine.execNopr12 op u s
  | .nopr14 op u => Sys2Proof.Machine.execNopr14 op u s
  | .nopr18 op u => Sys2Proof.Machine.execNopr18 op u s
  | .nopr20 op u => Sys2Proof.Machine.execNopr20 op u s
  | .nopr40 op u => Sys2Proof.Machine.execNopr40 op u s
  | .nopr80 op u => Sys2Proof.Machine.execNopr80 op u s

end Sys2Proof.Machine
end

