-- ==== Sys2Proof/Machine/Step.lean ====
section
/-! DEFINITION. One step of the machine (spec/40_step_cycle.md R90): from a running state, the fetch phase (R91 to R93)
and then the instruction; a terminal state has no step (60_exceptions.md R213). -/

namespace Sys2Proof.Machine

/-- One step. A fetch that yields no instruction halts with its reason and changes nothing else (R91, R93). In a
terminal state the machine stops by name (log 1). -/
def step (s : State) : Host.Outcome State Fault Refusal :=
  match s.status with
  | .running =>
    match s.fetch with
    | .error reason => .next (s.halt reason)
    | .ok i => exec i s
  | st => .fault (.terminal st)

/-- The state with the instruction word of spec/opcode_table.json's numbering (opcode in bits 15 to 8) stored where
`step` fetches next. A pointer with no room for two bytes is put to 0 and the status to running, since the fetch needs
both; a state ready to fetch keeps its pointer and status (log 5). -/
def State.withFetchWord (s : State) (nbits w : Nat) : State :=
  let iw := w % 2 ^ nbits
  let a : Int := if 0 ≤ s.pc ∧ s.pc ≤ 254 then s.pc else 0
  { s with
    pc := a
    status := .running
    mem := (s.mem.write a.toNat (BitVec.ofNat 8 (iw / 256))).write (a.toNat + 1) (BitVec.ofNat 8 iw) }

end Sys2Proof.Machine
end

