-- ==== Sys2Proof/Machine/Status.lean ====
section
/-! DEFINITION. What the status register says to the host (spec/60_exceptions.md R200 to R202, R213, R222). -/

namespace Sys2Proof.Machine

/-- The three-bit code of a status (R201). -/
def Status.code : Status → BitVec 3
  | .running => 0
  | .instructionsExhausted => 1
  | .undefinedOpcode => 2
  | .missingParameter => 3
  | .halted => 4
  | .faultedInRegIndex => 5

/-- A state with this status has no step (R213). -/
def Status.isTerminal : Status → Bool
  | .running => false
  | .instructionsExhausted => true
  | .undefinedOpcode => true
  | .missingParameter => true
  | .halted => true
  | .faultedInRegIndex => true

/-- The four "clean" halts (R200). -/
def Status.isCleanHalt : Status → Bool
  | .running => false
  | .instructionsExhausted => true
  | .undefinedOpcode => true
  | .missingParameter => true
  | .halted => true
  | .faultedInRegIndex => false

/-- The line the surrounding software prints for a termination, recorded for reference: the core produces no text
(R202). -/
def Status.diagnostic : Status → Option String
  | .running => none
  | .instructionsExhausted => some "no more instructions"
  | .undefinedOpcode => some "undefined instruction"
  | .missingParameter => some "no parameter provided"
  | .halted => some "virtual machine finished working"
  | .faultedInRegIndex => none

/-- The status the host sees after a step: a fault of the instruction shows as `Faulted(InRegIndex)` (R206), a step asked
of a terminal state leaves its status (R213). -/
def outcomeStatus : Host.Outcome State Fault Refusal → Option Status
  | .next s => some s.status
  | .fault (.inRegIndex _) => some .faultedInRegIndex
  | .fault (.terminal st) => some st
  | .refused _ => none

/-- What a host may rely on at the end of a run (R222). -/
def observe (s : State) : Status × List Byte := (s.status, s.out)

end Sys2Proof.Machine
end

