-- ==== Sys2Proof/Machine/Ports.lean ====
section
/-! DEFINITION. The abstract interface of the block (spec/70_reset_and_hazards.md R235): what the signals carry during
the step from a state. It names the primitives of 00_scope.md R11 and adds no behaviour; `step` does not use it
(log 14). -/

namespace Sys2Proof.Machine

/-- The signals of R235 over one step. `clk` has no meaning without time (R250); `rst` is `State.applyReset`. -/
structure Ports where
  /-- `imem_addr`: the addresses presented to program memory, in order -/
  imemAddrs : List Byte
  /-- `imem_data`: the bytes read there, in order -/
  imemData : List Byte
  /-- `in_avail` -/
  inAvail : Bool
  /-- `in_data`, meaningful when `in_avail` is 1 -/
  inData : Option Byte
  /-- `in_take`: the step consumes the input byte -/
  inTake : Bool
  /-- `out_valid` with `out_data`: the byte the step emits -/
  outByte : Option Byte
  /-- `status` before the step, as its code -/
  status : BitVec 3
deriving DecidableEq, Repr

/-- The number of addresses the fetch presents: the parameter address only after an opcode byte that is not 0x00
(40_step_cycle.md R91 to R93). -/
def State.fetchCount (s : State) : Nat :=
  match s.status, s.fetchWindow with
  | .running, [] => 0
  | .running, [_] => 1
  | .running, op :: _ :: _ => if op = 0 then 1 else 2
  | _, _ => 0

/-- The instruction the step from this state runs, if it runs one. -/
def State.current (s : State) : Option Instr :=
  match s.status, s.fetch with
  | .running, .ok i => some i
  | _, _ => none

/-- IN with a byte available and a register to put it in takes the byte (45_in_out.md R171; R235: "asserted once per
successful IN"). For an IN that faults R172 and R206 leave open whether the byte was consumed: that the signal is then 0
is the view's own (DESIGN CHOICE, unsafe for a claim on it: log 14). No state and no statement holds that value. -/
def State.takesInput (s : State) : Bool :=
  match s.current with
  | some (.inp n) => s.inAvail && (inRegister n).isSome
  | _ => false

/-- The byte OUT emits (45_in_out.md R175). -/
def State.emitsByte (s : State) : Option Byte :=
  match s.current with
  | some (.out rx _) => some (s.getReg rx)
  | _ => none

/-- The signals of R235 during the step from a state. -/
def ports (s : State) : Ports where
  imemAddrs := (List.range s.fetchCount).map fun k : Nat => BitVec.ofInt 8 (s.pc + (k : Int))
  imemData := s.fetchWindow.take s.fetchCount
  inAvail := s.inAvail
  inData := s.inData
  inTake := s.takesInput
  outByte := s.emitsByte
  status := s.status.code

end Sys2Proof.Machine
end

