-- ==== Sys2Proof/Machine/Pseudocode.lean ====
section
/-! DEFINITION. The whole step in one pseudocode, spec/40_step_cycle.md R99, line for line and by numbers: opcode values
and register indices are naturals, arithmetic is on naturals and integers and narrowed at the end. `step` does not use
it; a claim compares the two. -/

namespace Sys2Proof.Machine

/-- `x[i]` as a number. -/
def State.regNat (s : State) (i : Nat) : Nat := ((s.regs[i]?).getD 0).toNat

/-- `x[i] <- v` for a number, modulo 256. -/
def State.putNat (s : State) (i v : Nat) : State := { s with regs := s.regs.setIfInBounds i (BitVec.ofNat 8 v) }

/-- The end of an arm that wrote `x[i]`: `z <- zero(x[i])` and `flag <- z`. -/
def State.zeroOf (s : State) (i : Nat) : State := { s with flag := decide (s.regNat i = 0) }

/-- The end of an arm with `z <- 0`. -/
def State.zeroNot (s : State) : State := { s with flag := false }

/-- `sdisp(p)` of a number 0 to 255 (00_scope.md R9). -/
def sdispNat (p : Nat) : Int := if p ≤ 127 then (p : Int) else (p : Int) - 256

/-- The `case` of R99, from the state with `pc` advanced to `a + 2`. -/
def pseudoCase (a : Int) (opcode p : Nat) (s : State) : Host.Outcome State Fault Refusal :=
  let rx := p % 16
  let ry := p / 16
  match opcode with
  | 0x01 => .next ((s.putNat rx ((s.regNat rx + 1) % 256)).zeroOf rx)
  | 0x02 => .next ((s.putNat rx ((s.regNat rx + 255) % 256)).zeroOf rx)
  | 0x03 => .next ((s.putNat rx (s.regNat ry)).zeroOf rx)
  | 0x04 => .next ((s.putNat 0 p).zeroOf 0)
  | 0x05 => .next ((s.putNat rx ((2 * s.regNat rx) % 256)).zeroOf rx)
  | 0x06 => .next ((s.putNat rx (s.regNat rx / 2)).zeroOf rx)
  | 0x07 => .next { s with pc := a + sdispNat p }.zeroNot
  | 0x08 => .next (if s.flag = true then { s with pc := a + sdispNat p } else s).zeroNot
  | 0x09 => .next (if s.flag = false then { s with pc := a + sdispNat p } else s).zeroNot
  | 0x0A => .next (if s.inx = true then { s with pc := a + sdispNat p } else s).zeroNot
  | 0x0B => .next { s with flag := false, status := .halted }
  | 0x0C => .next ((s.putNat rx ((s.regNat rx + s.regNat ry) % 256)).zeroOf rx)
  | 0x0D => .next ((s.putNat rx ((s.regNat rx + 256 - s.regNat ry) % 256)).zeroOf rx)
  | 0x0E => .next ((s.putNat rx (s.regNat rx ^^^ s.regNat ry)).zeroOf rx)
  | 0x0F => .next ((s.putNat rx (s.regNat rx ||| s.regNat ry)).zeroOf rx)
  | 0x10 =>
    if h : s.ic < s.input.length then
      if p > 15 then .fault (.inRegIndex (BitVec.ofNat 8 p))
      else .next { s.putNat p (s.input[s.ic]'h).toNat with ic := s.ic + 1 }.zeroNot
    else .next { s with inx := true }.zeroNot
  | 0x11 => .next { s with out := s.out ++ [BitVec.ofNat 8 (s.regNat rx)] }.zeroNot
  | _ => .next s.zeroNot

/-- The step of R99, from a running state. -/
def pseudoStep (s : State) : Host.Outcome State Fault Refusal :=
  let a := s.pc
  if a < 0 ∨ a > 255 then .next { s with status := .instructionsExhausted }
  else
    let opcode := (s.mem.read a.toNat).toNat
    if opcode = 0 then .next { s with status := .undefinedOpcode }
    else if a + 1 > 255 then .next { s with status := .missingParameter }
    else
      let p := (s.mem.read (a + 1).toNat).toNat
      pseudoCase a opcode p { s with pc := a + 2 }

end Sys2Proof.Machine
end

