-- ==== Sys2Proof/Safety.lean ====
section
/-! DEFINITION. The terms claims are stated in: which registers an instruction reads and writes, what a completed
instruction leaves unchanged, the invariant of the machine, its runs and which of them are safe. -/

namespace Sys2Proof.Machine

/-- The register the flag is computed from: the one written by the ten flag-setting instructions (spec/40_step_cycle.md
R98). -/
def flagRegister : Instr → Option RegIdx
  | .inc rx _ => some rx
  | .dec rx _ => some rx
  | .mov rx _ => some rx
  | .movc _ => some 0
  | .lsl rx _ => some rx
  | .lsr rx _ => some rx
  | .add rx _ => some rx
  | .sub rx _ => some rx
  | .xor rx _ => some rx
  | .or rx _ => some rx
  | .und0 => none
  | .jmp _ => none
  | .jz _ => none
  | .jnz _ => none
  | .jfe _ => none
  | .ret _ => none
  | .inp _ => none
  | .out _ _ => none
  | .nopr12 _ _ => none
  | .nopr14 _ _ => none
  | .nopr18 _ _ => none
  | .nopr20 _ _ => none
  | .nopr40 _ _ => none
  | .nopr80 _ _ => none

/-- The register an instruction writes: the "writes" column of 10_state.md R22. -/
def writtenRegister (i : Instr) (s : State) : Option RegIdx :=
  match i with
  | .inp n => if s.inAvail then inRegister n else none
  | other => flagRegister other

/-- The registers an instruction reads: the "reads" column of 10_state.md R22. -/
def readRegisters : Instr → List RegIdx
  | .inc rx _ => [rx]
  | .dec rx _ => [rx]
  | .mov _ ry => [ry]
  | .lsl rx _ => [rx]
  | .lsr rx _ => [rx]
  | .add rx ry => [rx, ry]
  | .sub rx ry => [rx, ry]
  | .xor rx ry => [rx, ry]
  | .or rx ry => [rx, ry]
  | .out rx _ => [rx]
  | .und0 => []
  | .movc _ => []
  | .jmp _ => []
  | .jz _ => []
  | .jnz _ => []
  | .jfe _ => []
  | .ret _ => []
  | .inp _ => []
  | .nopr12 _ _ => []
  | .nopr14 _ _ => []
  | .nopr18 _ _ => []
  | .nopr20 _ _ => []
  | .nopr40 _ _ => []
  | .nopr80 _ _ => []

/-- The outcome with its next state changed. -/
def mapNext (f : State → State) : Host.Outcome State Fault Refusal → Host.Outcome State Fault Refusal
  | .next t => .next (f t)
  | .fault r => .fault r
  | .refused r => .refused r

/-- The two states agree on the latch, the status, the two streams and every byte of program memory. -/
def State.sameOutside (s t : State) : Prop :=
  t.inx = s.inx ∧ t.status = s.status ∧ t.ic = s.ic ∧ t.out = s.out ∧ t.input = s.input ∧
    ∀ a, t.mem.read a = s.mem.read a

/-- The instruction completes: register `rd` holds the number `v` and no other register changes, the flag is 1 exactly
when `v` is 0, the pointer is past the instruction, nothing else changes (41_inc_dec_mov_shift.md R116,
44_add_sub_logic.md R159). -/
def CompletesWriting (i : Instr) (s : State) (rd : RegIdx) (v : Nat) : Prop :=
  ∃ t, exec i s = .next t ∧ (t.getReg rd).toNat = v ∧ (∀ r, r ≠ rd → t.getReg r = s.getReg r) ∧
    (t.flag = true ↔ v = 0) ∧ t.pc = s.pc + 2 ∧ s.sameOutside t

/-- The instruction completes with the pointer at `target` and the flag 0, and changes nothing else (42_jumps.md R135,
46_reserved_opcodes.md R186). -/
def CompletesAt (i : Instr) (s : State) (target : Int) : Prop :=
  ∃ t, exec i s = .next t ∧ t.pc = target ∧ t.flag = false ∧ (∀ r, t.getReg r = s.getReg r) ∧ s.sameOutside t

/-- The invariant of the machine: program memory is in canonical form, the cursor lies in the input (10_state.md R37),
the latch is set only at its end (R28, 20_memory.md R60), the pointer is in `PCRANGE` (R40, 00_scope.md R5), and the status is not the
fault's, which no next state has (60_exceptions.md R206, log 2). -/
abbrev State.Inv (s : State) : Prop :=
  s.mem.wf = true ∧ s.ic ≤ s.input.length ∧ (s.inx = true → s.ic = s.input.length) ∧
    -128 ≤ s.pc ∧ s.pc ≤ 381 ∧ s.status ≠ .faultedInRegIndex

/-- The steps of a run from one state to another, with what the ports carried in each (60_exceptions.md R214: a run need
not end, so this speaks of its finite beginnings). -/
inductive Runs : State → List Ports → State → Prop where
  | start (s : State) : Runs s [] s
  | more {s t u : State} {trace : List Ports} (before : Runs s trace t) (last : step t = .next u) :
      Runs s (trace ++ [ports t]) u

/-- The input bytes taken along a run, in order (20_memory.md R61). -/
def inputTaken (trace : List Ports) : List Byte := trace.filterMap fun p => if p.inTake then p.inData else none

/-- The output bytes emitted along a run, in order (20_memory.md R63). -/
def outputEmitted (trace : List Ports) : List Byte := trace.filterMap fun p => p.outByte

/-- What a program must satisfy at a state so that the step does not fault: an IN it executes with a byte available names
one of the 16 registers (60_exceptions.md R206, 70_reset_and_hazards.md R247). -/
def State.inIndexValid (s : State) : Prop :=
  ∀ n, s.current = some (.inp n) → s.inAvail = true → n.toNat ≤ 15

/-- A run from this state never meets the fault: every state it reaches that runs has a next state. -/
def State.SafeRun (s : State) : Prop :=
  ∀ trace t, Runs s trace t → t.status = .running → ∃ u, step t = .next u

/-- An executor under fuel (60_exceptions.md R214): it goes on while the state runs and stops at a terminal state. -/
def runFuel : Nat → State → Host.Outcome State Fault Refusal
  | 0, s => .next s
  | k + 1, s =>
    match s.status with
    | .running =>
      match step s with
      | .next t => runFuel k t
      | .fault r => .fault r
      | .refused r => .refused r
    | _ => .next s

end Sys2Proof.Machine
end

