-- ==== Sys2Proof/Certificates/Slice0/Obligations.lean ====
section
/-! DEFINITION. The statements for the provers, from the numbered rules of spec/. `s.pc` is the address `a` of the
instruction (log 8); a parameter byte with `ry` above `rx` is written `16 * ry + rx`, as 30_encoding.md R82 writes it;
`d.toInt` is Lean's own signed reading of a byte. -/

open Sys2Proof Sys2Proof.Machine

/-! ## The instructions: encoding, result, flag and frame -/

/-- 41_inc_dec_mov_shift.md R110, with the frame of R116. -/
def Obligations.IncAddsOneModulo256 : Prop :=
  ∀ (s : State) (rx : RegIdx) (u : Nibble),
    decode [0x01, BitVec.ofNat 8 (16 * u.toNat + rx.toNat)] = .ok (.inc rx u, []) ∧
    CompletesWriting (.inc rx u) s rx (((s.getReg rx).toNat + 1) % 256) ∧
    (((s.getReg rx).toNat + 1) % 256 = 0 ↔ (s.getReg rx).toNat = 255)

/-- R111, with the frame of R116. -/
def Obligations.DecSubtractsOneModulo256 : Prop :=
  ∀ (s : State) (rx : RegIdx) (u : Nibble),
    decode [0x02, BitVec.ofNat 8 (16 * u.toNat + rx.toNat)] = .ok (.dec rx u, []) ∧
    CompletesWriting (.dec rx u) s rx (((s.getReg rx).toNat + 255) % 256) ∧
    (((s.getReg rx).toNat + 255) % 256 = 0 ↔ (s.getReg rx).toNat = 1)

/-- R112, with the frame of R116: the source is among the unchanged registers unless it is the destination. -/
def Obligations.MovCopiesRegister : Prop :=
  ∀ (s : State) (rx ry : RegIdx),
    decode [0x03, BitVec.ofNat 8 (16 * ry.toNat + rx.toNat)] = .ok (.mov rx ry, []) ∧
    CompletesWriting (.mov rx ry) s rx (s.getReg ry).toNat

/-- R113, with the frame of R116: the destination is register 0 whatever the constant. -/
def Obligations.MovcLoadsConstantIntoRegisterZero : Prop :=
  ∀ (s : State) (k : Byte),
    decode [0x04, k] = .ok (.movc k, []) ∧ CompletesWriting (.movc k) s 0 k.toNat

/-- R114, with the frame of R116. -/
def Obligations.LslDoublesModulo256 : Prop :=
  ∀ (s : State) (rx : RegIdx) (u : Nibble),
    decode [0x05, BitVec.ofNat 8 (16 * u.toNat + rx.toNat)] = .ok (.lsl rx u, []) ∧
    CompletesWriting (.lsl rx u) s rx ((2 * (s.getReg rx).toNat) % 256) ∧
    ((2 * (s.getReg rx).toNat) % 256 = 0 ↔ (s.getReg rx).toNat = 0 ∨ (s.getReg rx).toNat = 128)

/-- R115, with the frame of R116. -/
def Obligations.LsrHalves : Prop :=
  ∀ (s : State) (rx : RegIdx) (u : Nibble),
    decode [0x06, BitVec.ofNat 8 (16 * u.toNat + rx.toNat)] = .ok (.lsr rx u, []) ∧
    CompletesWriting (.lsr rx u) s rx ((s.getReg rx).toNat / 2) ∧
    ((s.getReg rx).toNat / 2 = 0 ↔ (s.getReg rx).toNat = 0 ∨ (s.getReg rx).toNat = 1)

/-- 42_jumps.md R131. -/
def Obligations.JmpAlwaysJumps : Prop :=
  ∀ (s : State) (d : Byte),
    decode [0x07, d] = .ok (.jmp d, []) ∧ CompletesAt (.jmp d) s (s.pc + d.toInt)

/-- R132, with R135 for the jump not taken. -/
def Obligations.JzJumpsWhenFlagIsSet : Prop :=
  ∀ (s : State) (d : Byte),
    decode [0x08, d] = .ok (.jz d, []) ∧
    CompletesAt (.jz d) s (if s.flag = true then s.pc + d.toInt else s.pc + 2)

/-- R133, with R135 for the jump not taken. -/
def Obligations.JnzJumpsWhenFlagIsClear : Prop :=
  ∀ (s : State) (d : Byte),
    decode [0x09, d] = .ok (.jnz d, []) ∧
    CompletesAt (.jnz d) s (if s.flag = false then s.pc + d.toInt else s.pc + 2)

/-- R134, with R135 for the jump not taken. -/
def Obligations.JfeJumpsWhenInputIsExhausted : Prop :=
  ∀ (s : State) (d : Byte),
    decode [0x0A, d] = .ok (.jfe d, []) ∧
    CompletesAt (.jfe d) s (if s.inx = true then s.pc + d.toInt else s.pc + 2)

/-- 43_ret.md R150. That the flag is 0 at the halt rests on decision D6 (log 13). -/
def Obligations.RetHaltsPastItself : Prop :=
  ∀ (s : State) (u : Byte),
    decode [0x0B, u] = .ok (.ret u, []) ∧
    ∃ t, exec (.ret u) s = .next t ∧ t.status = .halted ∧ t.pc = s.pc + 2 ∧ t.flag = false ∧
      (∀ r, t.getReg r = s.getReg r) ∧ t.inx = s.inx ∧ t.ic = s.ic ∧ t.out = s.out ∧ t.input = s.input ∧
      ∀ a, t.mem.read a = s.mem.read a

/-- 44_add_sub_logic.md R155, with the frame of R159. -/
def Obligations.AddAddsModulo256 : Prop :=
  ∀ (s : State) (rx ry : RegIdx),
    decode [0x0C, BitVec.ofNat 8 (16 * ry.toNat + rx.toNat)] = .ok (.add rx ry, []) ∧
    CompletesWriting (.add rx ry) s rx (((s.getReg rx).toNat + (s.getReg ry).toNat) % 256) ∧
    (((s.getReg rx).toNat + (s.getReg ry).toNat) % 256 = 0 ↔
      (s.getReg rx).toNat + (s.getReg ry).toNat = 0 ∨ (s.getReg rx).toNat + (s.getReg ry).toNat = 256)

/-- R156, with the frame of R159: the minuend is `x[rx]`, the flag is 1 exactly when the operands were equal. -/
def Obligations.SubSubtractsModulo256 : Prop :=
  ∀ (s : State) (rx ry : RegIdx),
    decode [0x0D, BitVec.ofNat 8 (16 * ry.toNat + rx.toNat)] = .ok (.sub rx ry, []) ∧
    CompletesWriting (.sub rx ry) s rx (((s.getReg rx).toNat + 256 - (s.getReg ry).toNat) % 256) ∧
    (((s.getReg rx).toNat + 256 - (s.getReg ry).toNat) % 256 = 0 ↔ s.getReg rx = s.getReg ry)

/-- R157, with the frame of R159, bit by bit. -/
def Obligations.XorIsBitwiseExclusiveOr : Prop :=
  ∀ (s : State) (rx ry : RegIdx),
    decode [0x0E, BitVec.ofNat 8 (16 * ry.toNat + rx.toNat)] = .ok (.xor rx ry, []) ∧
    CompletesWriting (.xor rx ry) s rx ((s.getReg rx).toNat ^^^ (s.getReg ry).toNat) ∧
    ((s.getReg rx).toNat ^^^ (s.getReg ry).toNat = 0 ↔ s.getReg rx = s.getReg ry) ∧
    ∀ t, exec (.xor rx ry) s = .next t →
      ∀ k, (t.getReg rx).getLsbD k = ((s.getReg rx).getLsbD k != (s.getReg ry).getLsbD k)

/-- R158, with the frame of R159, bit by bit. -/
def Obligations.OrIsBitwiseInclusiveOr : Prop :=
  ∀ (s : State) (rx ry : RegIdx),
    decode [0x0F, BitVec.ofNat 8 (16 * ry.toNat + rx.toNat)] = .ok (.or rx ry, []) ∧
    CompletesWriting (.or rx ry) s rx ((s.getReg rx).toNat ||| (s.getReg ry).toNat) ∧
    ((s.getReg rx).toNat ||| (s.getReg ry).toNat = 0 ↔ (s.getReg rx).toNat = 0 ∧ (s.getReg ry).toNat = 0) ∧
    ∀ t, exec (.or rx ry) s = .next t →
      ∀ k, (t.getReg rx).getLsbD k = ((s.getReg rx).getLsbD k || (s.getReg ry).getLsbD k)

/-- 45_in_out.md R171, the branch with a byte available and a register to put it in. -/
def Obligations.InTakesNextByte : Prop :=
  ∀ (s : State) (n : Byte), s.ic < s.input.length → n.toNat ≤ 15 →
    decode [0x10, n] = .ok (.inp n, []) ∧
    ∃ t, exec (.inp n) s = .next t ∧ some (t.getReg (BitVec.ofNat 4 n.toNat)) = s.input[s.ic]? ∧
      (∀ r : RegIdx, r.toNat ≠ n.toNat → t.getReg r = s.getReg r) ∧ t.ic = s.ic + 1 ∧ t.inx = s.inx ∧
      t.flag = false ∧ t.pc = s.pc + 2 ∧ t.status = s.status ∧ t.out = s.out ∧ t.input = s.input ∧
      ∀ a, t.mem.read a = s.mem.read a

/-- R171, the branch with no byte available, for every value of the parameter byte (R172). -/
def Obligations.InWithoutByteSetsLatch : Prop :=
  ∀ (s : State) (n : Byte), s.input.length ≤ s.ic →
    decode [0x10, n] = .ok (.inp n, []) ∧
    ∃ t, exec (.inp n) s = .next t ∧ t.inx = true ∧ (∀ r, t.getReg r = s.getReg r) ∧ t.ic = s.ic ∧
      t.flag = false ∧ t.pc = s.pc + 2 ∧ t.status = s.status ∧ t.out = s.out ∧ t.input = s.input ∧
      ∀ a, t.mem.read a = s.mem.read a

/-- R172: the fault outcome, by decision D4 (log 2). -/
def Obligations.InFaultsWithoutRegister : Prop :=
  ∀ (s : State) (n : Byte), s.ic < s.input.length → 16 ≤ n.toNat →
    exec (.inp n) s = .fault (.inRegIndex n) ∧ outcomeStatus (exec (.inp n) s) = some .faultedInRegIndex

/-- R175. -/
def Obligations.OutAppendsRegister : Prop :=
  ∀ (s : State) (rx : RegIdx) (u : Nibble),
    decode [0x11, BitVec.ofNat 8 (16 * u.toNat + rx.toNat)] = .ok (.out rx u, []) ∧
    ∃ t, exec (.out rx u) s = .next t ∧ t.out = s.out ++ [s.getReg rx] ∧ t.flag = false ∧ t.pc = s.pc + 2 ∧
      (∀ r, t.getReg r = s.getReg r) ∧ t.inx = s.inx ∧ t.ic = s.ic ∧ t.status = s.status ∧ t.input = s.input ∧
      ∀ a, t.mem.read a = s.mem.read a

/-- 46_reserved_opcodes.md R185: one byte, whatever follows it, and nothing but the status changes. -/
def Obligations.ZeroOpcodeInstructionHalts : Prop :=
  ∀ (s : State) (rest : List Byte),
    decode (0x00 :: rest) = .ok (.und0, rest) ∧ exec .und0 s = .next { s with status := .undefinedOpcode }

/-- R186: every opcode byte from 0x12 on, with every parameter, is a NOPR, and NOPR in each of its six rows does nothing
but clear the flag and advance. -/
def Obligations.ReservedOpcodesDoNothing : Prop :=
  (∀ (s : State) (op p : Byte), 0x12 ≤ op.toNat →
    ∃ i, decode [op, p] = .ok (i, []) ∧ i.row.mnemonic = "NOPR" ∧ CompletesAt i s (s.pc + 2)) ∧
  ∀ (s : State) (op u : Byte),
    CompletesAt (.nopr12 op u) s (s.pc + 2) ∧ CompletesAt (.nopr14 op u) s (s.pc + 2) ∧
    CompletesAt (.nopr18 op u) s (s.pc + 2) ∧ CompletesAt (.nopr20 op u) s (s.pc + 2) ∧
    CompletesAt (.nopr40 op u) s (s.pc + 2) ∧ CompletesAt (.nopr80 op u) s (s.pc + 2)

/-! ## Reset and boot -/

/-- 10_state.md R41 and 70_reset_and_hazards.md R230, R232: what reset leaves. That reset may be applied in any state and
always gives these values is decision D15; that the core holds a status, running after reset, is decision D7. -/
def Obligations.ResetClearsEveryElement : Prop :=
  ∀ s : State,
    (∀ r, s.applyReset.getReg r = 0) ∧ s.applyReset.pc = 0 ∧ s.applyReset.flag = false ∧
    s.applyReset.inx = false ∧ s.applyReset.ic = 0 ∧ s.applyReset.out = [] ∧ s.applyReset.status = .running ∧
    s.applyReset.input = s.input ∧ ∀ a, s.applyReset.mem.read a = s.mem.read a

/-- 10_state.md R41, 70_reset_and_hazards.md R230, R231: after reset the core runs (decisions D7, D15) and its first step
fetches from address 0. That the decoder is shown both bytes, although a zero opcode byte is fetched alone (R92), is the
model's choice (DEDUCED, log 9). -/
def Obligations.FirstStepFetchesFromZero : Prop :=
  ∀ s : State, s.applyReset.status = .running ∧
    s.applyReset.fetchWindow = [s.mem.read 0, s.mem.read 1] ∧
    (∀ i rest, decode [s.mem.read 0, s.mem.read 1] = .ok (i, rest) → step s.applyReset = exec i s.applyReset)

/-- 20_memory.md R50, 70_reset_and_hazards.md R233: the image is padded with zero bytes; one that does not fit starts no
run (decision D18, log 16). -/
def Obligations.BootLoadsPaddedImage : Prop :=
  ∀ image input : List Byte,
    (image.length ≤ 256 → ∃ s, State.boot image input = some s ∧ s.Inv ∧ s.status = .running ∧ s.pc = 0 ∧
      s.input = input ∧ s.ic = 0 ∧ s.out = [] ∧ (∀ r, s.getReg r = 0) ∧ s.flag = false ∧ s.inx = false ∧
      ∀ a, s.mem.read a = image.getD a 0) ∧
    (256 < image.length → State.boot image input = none)

/-- 20_memory.md R59, 46_reserved_opcodes.md R185: an image of zero bytes, the empty one among them, halts in its first
step and emits nothing. -/
def Obligations.ZeroImageHaltsAtOnce : Prop :=
  ∀ (k : Nat) (input : List Byte) (s : State), State.boot (List.replicate k 0) input = some s →
    step s = .next { s with status := .undefinedOpcode } ∧ s.out = []

/-- The machine as the host places one word (log 5): every 16-bit word of the opcode table's numbering decodes, and the
very next step runs it. -/
def Obligations.PlacedWordRunsNext : Prop :=
  ∀ (s : State) (w : Nat), s.mem.wf = true → w < 65536 →
    ∃ i, decodeTableWord 16 w = some i ∧
      i.row.holds (instrWord (BitVec.ofNat 8 (w / 256)) (BitVec.ofNat 8 w)) = true ∧
      step (s.withFetchWord 16 w) = exec i (s.withFetchWord 16 w)

/-! ## The step -/

/-- 40_step_cycle.md R92: at any address in bounds, 255 among them, and with only the opcode byte fetched, which is
seen through the model's view of the ports (decision D14, log 14). -/
def Obligations.ZeroOpcodeHaltsStep : Prop :=
  ∀ s : State, s.status = .running → 0 ≤ s.pc → s.pc ≤ 255 → s.mem.read s.pc.toNat = 0 →
    step s = .next { s with status := .undefinedOpcode } ∧ (ports s).imemData = [0]

/-- R93: at address 255 an opcode byte that is not zero halts, whatever it is; below it the parameter byte is fetched,
which is seen through the model's view of the ports (decision D14, log 14). -/
def Obligations.MissingParameterOnlyAtTop : Prop :=
  ∀ s : State, s.status = .running →
    (s.pc = 255 → s.mem.read 255 ≠ 0 → step s = .next { s with status := .missingParameter }) ∧
    (0 ≤ s.pc → s.pc ≤ 254 → s.mem.read s.pc.toNat ≠ 0 →
      (ports s).imemData = [s.mem.read s.pc.toNat, s.mem.read (s.pc.toNat + 1)] ∧
      ∀ t, step s = .next t → t.status ≠ .missingParameter)

/-- R91: that a pointer below 0 is out of bounds is decision D3 (log 6); that no memory is read is seen through the
model's view of the ports (decision D14, log 14). -/
def Obligations.OutOfBoundsPointerExhausts : Prop :=
  ∀ s : State, s.status = .running → s.pc < 0 ∨ 255 < s.pc →
    step s = .next { s with status := .instructionsExhausted } ∧ (ports s).imemAddrs = []

/-- R90, R96: what the bytes at the pointer decode to is what the step runs, with nothing around it; at 255 only an
instruction of one byte can decode. -/
def Obligations.StepRunsDecodedInstruction : Prop :=
  ∀ s : State, s.status = .running →
    (0 ≤ s.pc → s.pc ≤ 254 → ∀ i rest,
      decode [s.mem.read s.pc.toNat, s.mem.read (s.pc.toNat + 1)] = .ok (i, rest) → step s = exec i s) ∧
    (s.pc = 255 → ∀ i rest, decode [s.mem.read 255] = .ok (i, rest) → step s = exec i s)

/-- R99: the machine is the pseudocode, line for line, in every running state. It rests on decisions D3, D4 and D6 as the
pseudocode does. -/
def Obligations.StepIsThePseudocode : Prop :=
  ∀ s : State, s.status = .running → step s = pseudoStep s

/-- 10_state.md R32, row by row; that an address below 0 is out of bounds is decision D3 (log 6). -/
def Obligations.PointerAfterStep : Prop :=
  ∀ s t : State, s.status = .running → step s = .next t →
    (s.pc < 0 ∨ 255 < s.pc → t.pc = s.pc) ∧
    (0 ≤ s.pc → s.pc ≤ 255 → s.mem.read s.pc.toNat = 0 → t.pc = s.pc) ∧
    (s.pc = 255 → s.mem.read 255 ≠ 0 → t.pc = 255) ∧
    (0 ≤ s.pc → s.pc ≤ 254 → s.mem.read s.pc.toNat ≠ 0 →
      t.pc =
        if s.mem.read s.pc.toNat = 0x07 ∨ (s.mem.read s.pc.toNat = 0x08 ∧ s.flag = true) ∨
            (s.mem.read s.pc.toNat = 0x09 ∧ s.flag = false) ∨ (s.mem.read s.pc.toNat = 0x0A ∧ s.inx = true) then
          s.pc + (s.mem.read (s.pc.toNat + 1)).toInt
        else s.pc + 2)

/-- 60_exceptions.md R200, R207: each termination happens exactly on its cause and leaves the state the table gives; no
step leads to the fault's status, because the model makes the fault an outcome that no next state carries (log 2). The
bound below 0 is decision D3, RET's flag D6. -/
def Obligations.TerminationsHaveTheirCauses : Prop :=
  ∀ s t : State, s.status = .running → step s = .next t →
    (t.status = .instructionsExhausted ↔ s.pc < 0 ∨ 255 < s.pc) ∧
    (t.status = .undefinedOpcode ↔ 0 ≤ s.pc ∧ s.pc ≤ 255 ∧ s.mem.read s.pc.toNat = 0) ∧
    (t.status = .missingParameter ↔ s.pc = 255 ∧ s.mem.read 255 ≠ 0) ∧
    (t.status = .halted ↔ 0 ≤ s.pc ∧ s.pc ≤ 254 ∧ s.mem.read s.pc.toNat = 0x0B) ∧
    t.status ≠ .faultedInRegIndex ∧
    (t.status.isTerminal = true → (∀ r, t.getReg r = s.getReg r) ∧ t.inx = s.inx ∧ t.ic = s.ic ∧ t.out = s.out ∧
      t.pc = (if t.status = .halted then s.pc + 2 else s.pc) ∧
      t.flag = if t.status = .halted then false else s.flag)

/-- R213: a terminal state has no step; that the model says so with a fault of its own is log 1. -/
def Obligations.TerminalStateHasNoStep : Prop :=
  ∀ s : State, s.status ≠ .running → step s = .fault (.terminal s.status)

/-- R205, R209, 70_reset_and_hazards.md R250: a running core always takes its next step, or faults, and it faults exactly
where an IN finds a byte and no register. -/
def Obligations.OnlyInFaultsAndNothingWaits : Prop :=
  ∀ s : State, s.status = .running →
    ((∃ t, step s = .next t) ∨ ∃ n, step s = .fault (.inRegIndex n)) ∧
    ∀ n, step s = .fault (.inRegIndex n) ↔
      0 ≤ s.pc ∧ s.pc ≤ 254 ∧ s.mem.read s.pc.toNat = 0x10 ∧ s.mem.read (s.pc.toNat + 1) = n ∧ 16 ≤ n.toNat ∧
        s.ic < s.input.length

/-! ## Rules of the whole machine -/

/-- 10_state.md R22: the registers each instruction writes, those it reads, and that the ten flag-setting ones compute
the flag from the register they wrote. -/
def Obligations.RegisterReadsAndWrites : Prop :=
  (∀ (i : Instr) (s t : State) (r : RegIdx), exec i s = .next t → writtenRegister i s ≠ some r →
    t.getReg r = s.getReg r) ∧
  (∀ (i : Instr) (s : State) (r : RegIdx) (v : Byte), r ∉ readRegisters i →
    exec i (s.setReg r v) =
      mapNext (fun t => if writtenRegister i s = some r then t else t.setReg r v) (exec i s)) ∧
  (∀ (i : Instr) (s t : State) (r : RegIdx), exec i s = .next t → flagRegister i = some r →
    (t.flag = true ↔ t.getReg r = 0))

/-- R26, 40_step_cycle.md R98: every completed instruction writes the flag, from the register it wrote or to 0; a halt at
the fetch, the zero opcode's among them, leaves it. RET's 0 is decision D6 (log 13). -/
def Obligations.FlagAfterEveryInstruction : Prop :=
  (∀ (i : Instr) (s t : State), exec i s = .next t → i ≠ .und0 →
    t.flag = match flagRegister i with
      | some r => decide (t.getReg r = 0)
      | none => false) ∧
  ∀ (s t : State), step s = .next t →
    t.status = .instructionsExhausted ∨ t.status = .undefinedOpcode ∨ t.status = .missingParameter →
      t.flag = s.flag

/-- R26: the only readers of the flag are JZ and JNZ; the zero opcode, which does not write it, passes it on. -/
def Obligations.FlagReadOnlyByJzAndJnz : Prop :=
  ∀ (i : Instr) (s : State) (z : Bool), (∀ d, i ≠ .jz d) → (∀ d, i ≠ .jnz d) →
    exec i (s.setFlag z) = if i = .und0 then mapNext (fun t => t.setFlag z) (exec i s) else exec i s

/-- 70_reset_and_hazards.md R241: after an instruction that is not one of the ten flag-setting ones JZ is never taken and
JNZ always is. -/
def Obligations.FlagLivesForOneInstruction : Prop :=
  ∀ (i : Instr) (s t : State) (d : Byte), exec i s = .next t → flagRegister i = none → i ≠ .und0 →
    CompletesAt (.jz d) t (t.pc + 2) ∧ CompletesAt (.jnz d) t (t.pc + d.toInt)

/-- 10_state.md R28: the latch is written only by IN with no byte available and read only by JFE; taking a byte, the last
one among them, does not set it, and it is never cleared. -/
def Obligations.LatchWrittenByInReadByJfe : Prop :=
  (∀ (i : Instr) (s t : State), exec i s = .next t → t.inx ≠ s.inx →
    (∃ n, i = .inp n) ∧ s.inAvail = false ∧ t.inx = true) ∧
  (∀ (s t : State) (n : Byte), exec (.inp n) s = .next t → t.inx = (s.inx || !s.inAvail)) ∧
  (∀ (i : Instr) (s t : State) (z : Bool), (∀ d, i ≠ .jfe d) → exec i s = .next t →
    ∃ u, exec i { s with inx := z } = .next u ∧ { u with inx := t.inx } = t)

/-- R38, 20_memory.md R63: only OUT emits, and it appends the register's value. -/
def Obligations.OutputGrowsOnlyByOut : Prop :=
  ∀ (i : Instr) (s t : State), exec i s = .next t →
    t.out = s.out ++ match i with
      | .out rx _ => [s.getReg rx]
      | _ => []

/-- 20_memory.md R58, 00_scope.md R6: along a run no byte of the image and nothing of the input changes, so a fetch sees
the image as it was at the start. -/
def Obligations.ImageAndInputAreFixed : Prop :=
  ∀ (s t : State) (trace : List Ports), Runs s trace t →
    (∀ a, t.mem.read a = s.mem.read a) ∧ t.input = s.input ∧
    t.fetchWindow = ({ s with pc := t.pc } : State).fetchWindow

/-- 20_memory.md R61, R63: the bytes taken along a run are the input from its start on, each once and in order, and the
output is the bytes emitted in order. -/
def Obligations.StreamsAlongARun : Prop :=
  ∀ (image input : List Byte) (s t : State) (trace : List Ports), State.boot image input = some s →
    Runs s trace t →
    inputTaken trace = input.take t.ic ∧ (inputTaken trace).length = t.ic ∧ outputEmitted trace = t.out

/-- 45_in_out.md R173, 20_memory.md R60: once the latch is set, then along every run it stays, no byte is available, every
IN leaves the registers and the cursor unchanged and every JFE branches. -/
def Obligations.ExhaustionIsPermanent : Prop :=
  ∀ (s t : State) (trace : List Ports), s.Inv → s.inx = true → Runs s trace t →
    t.inx = true ∧ t.inAvail = false ∧ t.ic = s.ic ∧
    (∀ n, ∃ u, exec (.inp n) t = .next u ∧ (∀ r, u.getReg r = t.getReg r) ∧ u.ic = t.ic ∧ u.inx = true) ∧
    ∀ d, CompletesAt (.jfe d) t (t.pc + d.toInt)

/-- 30_encoding.md R76: the ignored bits change nothing. -/
def Obligations.IgnoredBitsHaveNoEffect : Prop :=
  ∀ (i j : Instr) (s : State), i.clearIgnored = j.clearIgnored → exec i s = exec j s

/-- The invariant: canonical program memory, the cursor in the input, the latch set only at its end, the pointer in
`PCRANGE`, no faulted status. Every step keeps it, from every state that has it. -/
def Obligations.InvariantKeptByEveryStep : Prop :=
  ∀ s t : State, s.Inv → step s = .next t → t.Inv

/-- And it holds after reset (10_state.md R41), the empty image and input of `State.reset` being log 4. -/
def Obligations.InvariantHoldsAtReset : Prop :=
  State.reset.Inv ∧ ∀ s : State, s.mem.wf = true → s.applyReset.Inv

/-- R40: the pointer of every state a run reaches, running or terminal, for every image and input. -/
def Obligations.PointerRangeOfEveryRun : Prop :=
  ∀ (image input : List Byte) (s t : State) (trace : List Ports), State.boot image input = some s →
    Runs s trace t → -128 ≤ t.pc ∧ t.pc ≤ 381

/-- 60_exceptions.md R206: a run meets no fault exactly when every IN it executes with a byte available names one of the
16 registers. That such an IN faults otherwise is decision D4 (log 2). -/
def Obligations.SafeRunMeansValidInIndices : Prop :=
  ∀ s : State, s.SafeRun ↔ ∀ trace t, Runs s trace t → t.inIndexValid

/-! ## The interface -/

/-- 20_memory.md R51: the fetch presents the pointer and the address after it, each in bounds, and reads the bytes there;
through the ports of 70_reset_and_hazards.md R235 (decision D14, log 14). That nothing else reads program memory is
`InstructionsDoNotReadMemory`. -/
def Obligations.FetchAddressesAreInBounds : Prop :=
  ∀ (s : State) (k : Nat) (a : Byte), (ports s).imemAddrs[k]? = some a →
    s.status = .running ∧ k < 2 ∧ (a.toNat : Int) = s.pc + k ∧ (ports s).imemData[k]? = some (s.mem.read a.toNat)

/-- 70_reset_and_hazards.md R235: the ports carry what the step does to the two streams (log 14). -/
def Obligations.PortsCarryTheStreams : Prop :=
  ∀ s t : State, step s = .next t →
    t.ic = s.ic + (if (ports s).inTake = true then 1 else 0) ∧
    ((ports s).inTake = true → (ports s).inAvail = true ∧ ∃ b, (ports s).inData = some b ∧ s.input[s.ic]? = some b) ∧
    t.out = s.out ++ (ports s).outByte.toList

/-! ## Encoding and arithmetic -/

/-- 30_encoding.md R70 to R75, R78: decoding gives back every well-formed instruction, every operand and ignored bit at
every value, and leaves the bytes after it. That the ignored bits are operands is the model's choice (log 7). -/
def Obligations.DecodeOfEncode : Prop :=
  ∀ (i : Instr) (rest : List Byte), i.wellFormed = true → decode (encode i ++ rest) = .ok (i, rest)

/-- And the bytes are the only encoding of what they decode to. This rests on the model's choice to keep the ignored bits
as operands (DESIGN CHOICE, log 7): in the spec's reading 01 03 and 01 A3 are both INC r3 (R76, R82). -/
def Obligations.EncodeOfDecode : Prop :=
  ∀ (bytes rest : List Byte) (i : Instr), decode bytes = .ok (i, rest) →
    i.wellFormed = true ∧ encode i ++ rest = bytes

/-- R79, R84: exactly one row of the table matches a word, and it is the row of the decoded instruction. -/
def Obligations.OneRowMatchesEveryWord : Prop :=
  ∀ op p : Byte, ∃ i rest, decode [op, p] = .ok (i, rest) ∧ i.wellFormed = true ∧ i.row ∈ opcodeTable ∧
    i.row.holds (instrWord op p) = true ∧ ∀ r ∈ opcodeTable, r.holds (instrWord op p) = true → r = i.row

/-- Words written out from R71 to R75 and R82, one for each family. -/
def Obligations.SampleWordsDecode : Prop :=
  decodeTableWord 16 0b0000001100000001 = some (.mov 1 0) ∧
  decodeTableWord 16 0b0000000110100011 = some (.inc 3 0xA) ∧
  decodeTableWord 16 0b0000011111111010 = some (.jmp 0xFA) ∧
  decodeTableWord 16 0b0000101111101110 = some (.ret 0xEE) ∧
  decodeTableWord 16 0b0000110100010010 = some (.sub 2 1) ∧
  decodeTableWord 16 0b0001000000010000 = some (.inp 0x10) ∧
  decodeTableWord 16 0b0000000001010101 = some .und0 ∧
  decodeTableWord 16 0b1111111110011001 = some (.nopr80 0xFF 0x99)

/-- 00_scope.md R9: the displacement is the byte read as a signed number. -/
def Obligations.DisplacementIsSignedByte : Prop :=
  ∀ p : Byte, sdisp p = p.toInt ∧ -128 ≤ sdisp p ∧ sdisp p ≤ 127 ∧
    sdisp p = if p.toNat ≤ 127 then (p.toNat : Int) else (p.toNat : Int) - 256

/-- 30_encoding.md R82: the displacement byte an assembler writes reads back as the displacement. -/
def Obligations.DisplacementByteRoundTrip : Prop :=
  (∀ d : Int, -128 ≤ d → d ≤ 127 → (dispByte d).toNat = d % 256 ∧ sdisp (dispByte d) = d) ∧
  ∀ p : Byte, dispByte (sdisp p) = p

/-- 42_jumps.md R130: the target by the document's three operations on the advanced pointer, the net effect, and the
range it can have. -/
def Obligations.JumpTargetByThreeOperations : Prop :=
  ∀ (a : Int) (p : Byte),
    jumpTarget a p = (if 127 < p.toNat then (a + 2 - 2) - (256 - (p.toNat : Int)) else (a + 2 - 2) + (p.toNat : Int)) ∧
    jumpTarget a p = a + p.toInt ∧ (0 ≤ a → a ≤ 254 → -128 ≤ jumpTarget a p ∧ jumpTarget a p ≤ 381)

/-- R136: a jump completes whatever its target; the next step then meets the target, out of bounds (below 0 by decision
D3), at 255, or anywhere else, odd or even. -/
def Obligations.JumpTargetsAreUnchecked : Prop :=
  ∀ (s : State) (d : Byte), s.status = .running →
    ∃ t, exec (.jmp d) s = .next t ∧ t.pc = s.pc + d.toInt ∧ t.flag = false ∧ t.status = .running ∧
      (t.pc < 0 ∨ 255 < t.pc → step t = .next { t with status := .instructionsExhausted }) ∧
      (t.pc = 255 → step t = .next
        { t with status := if t.mem.read 255 = 0 then .undefinedOpcode else .missingParameter }) ∧
      (0 ≤ t.pc → t.pc ≤ 254 → ∃ i rest,
        decode [t.mem.read t.pc.toNat, t.mem.read (t.pc.toNat + 1)] = .ok (i, rest) ∧ step t = exec i t)

/-! ## Program memory as data -/

/-- 20_memory.md R51, R52: once fetched, no instruction reads program memory: with any other program memory in its place
the outcome is the same, but for that memory itself. -/
def Obligations.InstructionsDoNotReadMemory : Prop :=
  ∀ (i : Instr) (s : State) (m : Memory),
    exec i { s with mem := m } = mapNext (fun t => { t with mem := m }) (exec i s)
end

