-- ==== Sys2Proof/Laws/Decode.lean ====
section
/-! SUPPORT. The fields of a parameter byte, and what the decoder answers. -/

namespace Sys2Proof

@[simp] theorem loNibble_join (ry rx : Nibble) : loNibble (joinNibbles ry rx) = rx := by
  revert ry rx
  decide

@[simp] theorem hiNibble_join (ry rx : Nibble) : hiNibble (joinNibbles ry rx) = ry := by
  revert ry rx
  decide

/-- A parameter byte as 30_encoding.md R82 writes it, `16 * ry + rx`. -/
theorem join_ofNat (ry rx : Nibble) : BitVec.ofNat 8 (16 * ry.toNat + rx.toNat) = joinNibbles ry rx := by
  revert ry rx
  decide

/-- A parameter byte is its two nibbles. -/
@[simp] theorem join_nibbles (p : Byte) : joinNibbles (hiNibble p) (loNibble p) = p := by
  revert p
  decide

theorem loNibble_toNat (p : Byte) : (loNibble p).toNat = p.toNat % 16 := by
  simp [loNibble, BitVec.extractLsb'_toNat]

theorem hiNibble_toNat (p : Byte) : (hiNibble p).toNat = p.toNat / 16 := by
  have := p.isLt
  simp [hiNibble, BitVec.extractLsb'_toNat, Nat.shiftRight_eq_div_pow]
  omega

/-- Opcode 0x00 needs no parameter byte (30_encoding.md R70). -/
@[simp] theorem decode_zero (rest : List Byte) : decode (0#8 :: rest) = .ok (.und0, rest) := by
  cases rest <;> simp [decode]

/-- Every other opcode byte takes the byte after it. -/
theorem decode_pair {op : Byte} (p : Byte) (rest : List Byte) (h : op ≠ 0) :
    decode (op :: p :: rest) = .ok (decodePair op p, rest) := by
  rw [decode, if_neg h]

theorem decode_single {op : Byte} (h : op ≠ 0) : decode [op] = .error .noParameter := by
  rw [decode, if_neg h]

/-- The six ranges of R78 take in every opcode byte from 0x12 on. -/
theorem reserved_covered (op : Byte) (h : 0x12 ≤ op.toNat) :
    inRange op 0x12 0xFE || inRange op 0x14 0xFC || inRange op 0x18 0xF8 || inRange op 0x20 0xE0 ||
      inRange op 0x40 0xC0 || inRange op 0x80 0x80 := by
  revert op
  decide

/-- No two of the six ranges share an opcode byte, and none takes in a byte below 0x12 (R78). -/
theorem inRange_bounds (op : Byte) :
    (inRange op 0x12 0xFE = true ↔ 0x12 ≤ op.toNat ∧ op.toNat ≤ 0x13) ∧
    (inRange op 0x14 0xFC = true ↔ 0x14 ≤ op.toNat ∧ op.toNat ≤ 0x17) ∧
    (inRange op 0x18 0xF8 = true ↔ 0x18 ≤ op.toNat ∧ op.toNat ≤ 0x1F) ∧
    (inRange op 0x20 0xE0 = true ↔ 0x20 ≤ op.toNat ∧ op.toNat ≤ 0x3F) ∧
    (inRange op 0x40 0xC0 = true ↔ 0x40 ≤ op.toNat ∧ op.toNat ≤ 0x7F) ∧
    (inRange op 0x80 0x80 = true ↔ 0x80 ≤ op.toNat ∧ op.toNat ≤ 0xFF) := by
  revert op
  decide

/-- From 0x12 on the decoder goes by the ranges alone. -/
theorem decodePair_reserved {op : Byte} (p : Byte) (h : 0x12 ≤ op.toNat) :
    decodePair op p = decodeReserved op p := by
  unfold decodePair
  split <;> first | omega | rfl

/-- The decoder keeps both bytes: the opcode byte and the parameter byte are the instruction's. -/
theorem decodePair_bytes {op : Byte} (p : Byte) (h : op ≠ 0) :
    (decodePair op p).opcode = op ∧ (decodePair op p).parameter = some p := by
  by_cases hr : 0x12 ≤ op.toNat
  · rw [decodePair_reserved p hr]
    unfold decodeReserved
    repeat' split
    all_goals exact ⟨rfl, rfl⟩
  · have h0 : op.toNat ≠ 0 := fun e => h (BitVec.eq_of_toNat_eq e)
    unfold decodePair
    split
    case h_1 h1 => exact absurd h1 h0
    case h_19 =>
      simp only [imp_false] at *
      omega
    all_goals
      rename_i h1
      exact ⟨(BitVec.eq_of_toNat_eq h1).symm, by simp [Instr.parameter]⟩

end Sys2Proof
end

