-- ==== Sys2Proof/Laws/Memory.lean ====
section
/-! SUPPORT. The laws of program memory: reads after writes, and that every operation keeps the canonical form, in which
memories with the same bytes are the same data. -/

namespace Sys2Proof.Machine

@[simp] theorem Memory.read_nil (a : Nat) : Memory.read [] a = Config.paddingByte := rfl

@[simp] theorem Memory.read_cons (b : Nat) (v : Byte) (rest : Memory) (a : Nat) :
    Memory.read ((b, v) :: rest) a = if b = a then v else Memory.read rest a := rfl

/-- What the canonical form says of a first cell. -/
theorem Memory.wfFrom_cons {lo a : Nat} {v : Byte} {rest : Memory} :
    Memory.wfFrom lo ((a, v) :: rest) = true ↔
      lo ≤ a ∧ a < Config.memSize ∧ v ≠ Config.paddingByte ∧ Memory.wfFrom (a + 1) rest = true := by
  simp [Memory.wfFrom, and_assoc]

/-- A lower start is a weaker claim. -/
theorem Memory.wfFrom_mono {lo hi : Nat} {m : Memory} (h : Memory.wfFrom hi m = true) (le : lo ≤ hi) :
    Memory.wfFrom lo m = true := by
  cases m with
  | nil => rfl
  | cons c rest =>
    obtain ⟨a, v⟩ := c
    rw [Memory.wfFrom_cons] at h ⊢
    exact ⟨by omega, h.2⟩

/-- Below its first cell a canonical memory reads as padding. -/
theorem Memory.read_below {lo a : Nat} {m : Memory} (h : Memory.wfFrom lo m = true) (below : a < lo) :
    m.read a = Config.paddingByte := by
  induction m generalizing lo with
  | nil => rfl
  | cons c rest ih =>
    obtain ⟨b, v⟩ := c
    rw [Memory.wfFrom_cons] at h
    rw [Memory.read_cons, if_neg (by omega)]
    exact ih h.2.2.2 (by omega)

/-- Reading what was just written. -/
theorem Memory.read_write_same {m : Memory} (a : Nat) (v : Byte) {lo : Nat} (h : Memory.wfFrom lo m = true) :
    (m.write a v).read a = v := by
  induction m generalizing lo with
  | nil =>
    unfold Memory.write
    split
    · next hv => exact hv.symm
    · simp
  | cons c rest ih =>
    obtain ⟨b, w⟩ := c
    have hc := Memory.wfFrom_cons.mp h
    unfold Memory.write
    split
    · split
      · next hv => rw [Memory.read_cons, if_neg (by omega), Memory.read_below hc.2.2.2 (by omega), hv]
      · simp
    · split
      · split
        · next hv => rw [Memory.read_below hc.2.2.2 (by omega), hv]
        · simp
      · rw [Memory.read_cons, if_neg (by omega)]
        exact ih hc.2.2.2

/-- A write leaves every other address alone. -/
theorem Memory.read_write_other {m : Memory} {a b : Nat} (v : Byte) (ne : b ≠ a) :
    (m.write a v).read b = m.read b := by
  induction m with
  | nil =>
    unfold Memory.write
    split
    · rfl
    · rw [Memory.read_cons, if_neg (Ne.symm ne)]
  | cons c rest ih =>
    obtain ⟨d, w⟩ := c
    unfold Memory.write
    split
    · split
      · rfl
      · rw [Memory.read_cons, if_neg (Ne.symm ne)]
    · split
      · next hd =>
        subst hd
        split <;> simp [Ne.symm ne]
      · simp [ih]

/-- A write of an address of the memory keeps the canonical form from any start at or below it. -/
theorem Memory.write_wfFrom {m : Memory} {a lo : Nat} (v : Byte) (h : Memory.wfFrom lo m = true) (ge : lo ≤ a)
    (lt : a < Config.memSize) : Memory.wfFrom lo (m.write a v) = true := by
  induction m generalizing lo with
  | nil =>
    by_cases hv : v = Config.paddingByte
    · simp [Memory.write, hv, Memory.wfFrom]
    · rw [Memory.write, if_neg hv, Memory.wfFrom_cons]
      exact ⟨ge, lt, hv, rfl⟩
  | cons c rest ih =>
    obtain ⟨b, w⟩ := c
    have hc := Memory.wfFrom_cons.mp h
    unfold Memory.write
    split
    · split
      · exact h
      · next hv =>
        exact Memory.wfFrom_cons.mpr
          ⟨ge, lt, hv, Memory.wfFrom_cons.mpr ⟨by omega, hc.2.1, hc.2.2.1, hc.2.2.2⟩⟩
    · split
      · next hab =>
        split
        · exact Memory.wfFrom_mono hc.2.2.2 (by omega)
        · next hv => exact Memory.wfFrom_cons.mpr ⟨ge, lt, hv, hab ▸ hc.2.2.2⟩
      · exact Memory.wfFrom_cons.mpr ⟨hc.1, hc.2.1, hc.2.2.1, ih hc.2.2.2 (by omega)⟩

/-- A write of an address of the memory keeps the canonical form. -/
theorem Memory.write_wf {m : Memory} {a : Nat} (v : Byte) (h : m.wf = true) (lt : a < Config.memSize) :
    (m.write a v).wf = true :=
  Memory.write_wfFrom v h (Nat.zero_le a) lt

/-- An image that fits is in canonical form. -/
theorem Memory.ofImageFrom_wf (image : List Byte) (a : Nat) (fits : a + image.length ≤ Config.memSize) :
    Memory.wfFrom a (Memory.ofImageFrom a image) = true := by
  induction image generalizing a with
  | nil => rfl
  | cons v rest ih =>
    rw [List.length_cons] at fits
    have tail := ih (a + 1) (by omega)
    unfold Memory.ofImageFrom
    split
    · exact Memory.wfFrom_mono tail (by omega)
    · next hv => exact Memory.wfFrom_cons.mpr ⟨Nat.le_refl a, by omega, hv, tail⟩

theorem Memory.ofImage_wf {image : List Byte} (fits : image.length ≤ Config.memSize) :
    (Memory.ofImage image).wf = true :=
  Memory.ofImageFrom_wf image 0 (by omega)

/-- The bytes of an image are read back from where it starts on, and padding everywhere else. -/
theorem Memory.read_ofImageFrom (image : List Byte) (a b : Nat) :
    (Memory.ofImageFrom a image).read b = if a ≤ b then image.getD (b - a) Config.paddingByte
      else Config.paddingByte := by
  induction image generalizing a with
  | nil => simp [Memory.ofImageFrom]
  | cons v rest ih =>
    unfold Memory.ofImageFrom
    by_cases hab : a = b
    · subst hab
      split
      · next hv => simp [ih, hv]
      · simp
    · have step : (if v = Config.paddingByte then Memory.ofImageFrom (a + 1) rest
          else (a, v) :: Memory.ofImageFrom (a + 1) rest).read b = (Memory.ofImageFrom (a + 1) rest).read b := by
        split
        · rfl
        · simp [hab]
      rw [step, ih]
      by_cases hle : a ≤ b
      · rw [if_pos hle, if_pos (by omega), show b - a = (b - (a + 1)) + 1 by omega]
        simp
      · rw [if_neg hle, if_neg (by omega)]

/-- The image is read back at its own addresses, padding beyond it (20_memory.md R50). -/
theorem Memory.read_ofImage (image : List Byte) (b : Nat) :
    (Memory.ofImage image).read b = image.getD b Config.paddingByte := by
  simp [Memory.ofImage, Memory.read_ofImageFrom]

/-- Memories in canonical form with the same bytes are the same data. -/
theorem Memory.ext_of_read {m n : Memory} {lo : Nat} (hm : Memory.wfFrom lo m = true)
    (hn : Memory.wfFrom lo n = true) (same : ∀ a, m.read a = n.read a) : m = n := by
  induction m generalizing n lo with
  | nil =>
    cases n with
    | nil => rfl
    | cons c rest =>
      obtain ⟨b, v⟩ := c
      have := same b
      simp at this
      exact absurd this.symm (Memory.wfFrom_cons.mp hn).2.2.1
  | cons c rest ih =>
    obtain ⟨a, v⟩ := c
    have hc := Memory.wfFrom_cons.mp hm
    cases n with
    | nil =>
      have := same a
      simp at this
      exact absurd this hc.2.2.1
    | cons d rest' =>
      obtain ⟨b, w⟩ := d
      have hd := Memory.wfFrom_cons.mp hn
      have hab : a = b := by
        rcases Nat.lt_trichotomy a b with h | h | h
        · have := same a
          rw [Memory.read_cons, if_pos rfl, Memory.read_cons, if_neg (by omega),
            Memory.read_below hd.2.2.2 (by omega)] at this
          exact absurd this hc.2.2.1
        · exact h
        · have := same b
          rw [Memory.read_cons, if_neg (by omega), Memory.read_below hc.2.2.2 (by omega), Memory.read_cons,
            if_pos rfl] at this
          exact absurd this.symm hd.2.2.1
      subst hab
      have hvw : v = w := by
        have := same a
        simpa using this
      subst hvw
      rw [ih hc.2.2.2 hd.2.2.2]
      intro x
      have := same x
      by_cases hx : a = x
      · subst hx
        rw [Memory.read_below hc.2.2.2 (by omega), Memory.read_below hd.2.2.2 (by omega)]
      · simpa [hx] using this

end Sys2Proof.Machine
end

