-- ==== Sys2Proof/Laws/State.lean ====
section
/-! SUPPORT. What each update of the state does to each field: one lemma per field per update, true by unfolding. A
proof cites these and unfolds no record update. -/

namespace Sys2Proof.Machine

variable (s : State)

@[simp] theorem setReg_regs (i : RegIdx) (v : Byte) : (s.setReg i v).regs = s.regs.set i.toNat v i.isLt := rfl
@[simp] theorem setReg_pc (i : RegIdx) (v : Byte) : (s.setReg i v).pc = s.pc := rfl
@[simp] theorem setReg_flag (i : RegIdx) (v : Byte) : (s.setReg i v).flag = s.flag := rfl
@[simp] theorem setReg_inx (i : RegIdx) (v : Byte) : (s.setReg i v).inx = s.inx := rfl
@[simp] theorem setReg_status (i : RegIdx) (v : Byte) : (s.setReg i v).status = s.status := rfl
@[simp] theorem setReg_mem (i : RegIdx) (v : Byte) : (s.setReg i v).mem = s.mem := rfl
@[simp] theorem setReg_input (i : RegIdx) (v : Byte) : (s.setReg i v).input = s.input := rfl
@[simp] theorem setReg_ic (i : RegIdx) (v : Byte) : (s.setReg i v).ic = s.ic := rfl
@[simp] theorem setReg_out (i : RegIdx) (v : Byte) : (s.setReg i v).out = s.out := rfl

@[simp] theorem setPc_regs (t : Int) : (s.setPc t).regs = s.regs := rfl
@[simp] theorem setPc_pc (t : Int) : (s.setPc t).pc = t := rfl
@[simp] theorem setPc_flag (t : Int) : (s.setPc t).flag = s.flag := rfl
@[simp] theorem setPc_inx (t : Int) : (s.setPc t).inx = s.inx := rfl
@[simp] theorem setPc_status (t : Int) : (s.setPc t).status = s.status := rfl
@[simp] theorem setPc_mem (t : Int) : (s.setPc t).mem = s.mem := rfl
@[simp] theorem setPc_input (t : Int) : (s.setPc t).input = s.input := rfl
@[simp] theorem setPc_ic (t : Int) : (s.setPc t).ic = s.ic := rfl
@[simp] theorem setPc_out (t : Int) : (s.setPc t).out = s.out := rfl
@[simp] theorem setPc_getReg (t : Int) (r : RegIdx) : (s.setPc t).getReg r = s.getReg r := rfl

@[simp] theorem advance_regs : (s.advance).regs = s.regs := rfl
@[simp] theorem advance_pc : (s.advance).pc = s.pc + 2 := rfl
@[simp] theorem advance_flag : (s.advance).flag = s.flag := rfl
@[simp] theorem advance_inx : (s.advance).inx = s.inx := rfl
@[simp] theorem advance_status : (s.advance).status = s.status := rfl
@[simp] theorem advance_mem : (s.advance).mem = s.mem := rfl
@[simp] theorem advance_input : (s.advance).input = s.input := rfl
@[simp] theorem advance_ic : (s.advance).ic = s.ic := rfl
@[simp] theorem advance_out : (s.advance).out = s.out := rfl
@[simp] theorem advance_getReg (r : RegIdx) : (s.advance).getReg r = s.getReg r := rfl

@[simp] theorem jump_regs (d : Byte) : (s.jump d).regs = s.regs := rfl
@[simp] theorem jump_pc (d : Byte) : (s.jump d).pc = jumpTarget s.pc d := rfl
@[simp] theorem jump_flag (d : Byte) : (s.jump d).flag = s.flag := rfl
@[simp] theorem jump_inx (d : Byte) : (s.jump d).inx = s.inx := rfl
@[simp] theorem jump_status (d : Byte) : (s.jump d).status = s.status := rfl
@[simp] theorem jump_mem (d : Byte) : (s.jump d).mem = s.mem := rfl
@[simp] theorem jump_input (d : Byte) : (s.jump d).input = s.input := rfl
@[simp] theorem jump_ic (d : Byte) : (s.jump d).ic = s.ic := rfl
@[simp] theorem jump_out (d : Byte) : (s.jump d).out = s.out := rfl
@[simp] theorem jump_getReg (d : Byte) (r : RegIdx) : (s.jump d).getReg r = s.getReg r := rfl

@[simp] theorem setFlag_regs (z : Bool) : (s.setFlag z).regs = s.regs := rfl
@[simp] theorem setFlag_pc (z : Bool) : (s.setFlag z).pc = s.pc := rfl
@[simp] theorem setFlag_flag (z : Bool) : (s.setFlag z).flag = z := rfl
@[simp] theorem setFlag_inx (z : Bool) : (s.setFlag z).inx = s.inx := rfl
@[simp] theorem setFlag_status (z : Bool) : (s.setFlag z).status = s.status := rfl
@[simp] theorem setFlag_mem (z : Bool) : (s.setFlag z).mem = s.mem := rfl
@[simp] theorem setFlag_input (z : Bool) : (s.setFlag z).input = s.input := rfl
@[simp] theorem setFlag_ic (z : Bool) : (s.setFlag z).ic = s.ic := rfl
@[simp] theorem setFlag_out (z : Bool) : (s.setFlag z).out = s.out := rfl
@[simp] theorem setFlag_getReg (z : Bool) (r : RegIdx) : (s.setFlag z).getReg r = s.getReg r := rfl

@[simp] theorem clearFlag_regs : (s.clearFlag).regs = s.regs := rfl
@[simp] theorem clearFlag_pc : (s.clearFlag).pc = s.pc := rfl
@[simp] theorem clearFlag_flag : (s.clearFlag).flag = false := rfl
@[simp] theorem clearFlag_inx : (s.clearFlag).inx = s.inx := rfl
@[simp] theorem clearFlag_status : (s.clearFlag).status = s.status := rfl
@[simp] theorem clearFlag_mem : (s.clearFlag).mem = s.mem := rfl
@[simp] theorem clearFlag_input : (s.clearFlag).input = s.input := rfl
@[simp] theorem clearFlag_ic : (s.clearFlag).ic = s.ic := rfl
@[simp] theorem clearFlag_out : (s.clearFlag).out = s.out := rfl
@[simp] theorem clearFlag_getReg (r : RegIdx) : (s.clearFlag).getReg r = s.getReg r := rfl

@[simp] theorem flagFrom_regs (i : RegIdx) : (s.flagFrom i).regs = s.regs := rfl
@[simp] theorem flagFrom_pc (i : RegIdx) : (s.flagFrom i).pc = s.pc := rfl
@[simp] theorem flagFrom_flag (i : RegIdx) : (s.flagFrom i).flag = zero (s.getReg i) := rfl
@[simp] theorem flagFrom_inx (i : RegIdx) : (s.flagFrom i).inx = s.inx := rfl
@[simp] theorem flagFrom_status (i : RegIdx) : (s.flagFrom i).status = s.status := rfl
@[simp] theorem flagFrom_mem (i : RegIdx) : (s.flagFrom i).mem = s.mem := rfl
@[simp] theorem flagFrom_input (i : RegIdx) : (s.flagFrom i).input = s.input := rfl
@[simp] theorem flagFrom_ic (i : RegIdx) : (s.flagFrom i).ic = s.ic := rfl
@[simp] theorem flagFrom_out (i : RegIdx) : (s.flagFrom i).out = s.out := rfl
@[simp] theorem flagFrom_getReg (i : RegIdx) (r : RegIdx) : (s.flagFrom i).getReg r = s.getReg r := rfl

@[simp] theorem setInx_regs : (s.setInx).regs = s.regs := rfl
@[simp] theorem setInx_pc : (s.setInx).pc = s.pc := rfl
@[simp] theorem setInx_flag : (s.setInx).flag = s.flag := rfl
@[simp] theorem setInx_inx : (s.setInx).inx = true := rfl
@[simp] theorem setInx_status : (s.setInx).status = s.status := rfl
@[simp] theorem setInx_mem : (s.setInx).mem = s.mem := rfl
@[simp] theorem setInx_input : (s.setInx).input = s.input := rfl
@[simp] theorem setInx_ic : (s.setInx).ic = s.ic := rfl
@[simp] theorem setInx_out : (s.setInx).out = s.out := rfl
@[simp] theorem setInx_getReg (r : RegIdx) : (s.setInx).getReg r = s.getReg r := rfl

@[simp] theorem takeInput_regs : (s.takeInput).regs = s.regs := rfl
@[simp] theorem takeInput_pc : (s.takeInput).pc = s.pc := rfl
@[simp] theorem takeInput_flag : (s.takeInput).flag = s.flag := rfl
@[simp] theorem takeInput_inx : (s.takeInput).inx = s.inx := rfl
@[simp] theorem takeInput_status : (s.takeInput).status = s.status := rfl
@[simp] theorem takeInput_mem : (s.takeInput).mem = s.mem := rfl
@[simp] theorem takeInput_input : (s.takeInput).input = s.input := rfl
@[simp] theorem takeInput_ic : (s.takeInput).ic = s.ic + 1 := rfl
@[simp] theorem takeInput_out : (s.takeInput).out = s.out := rfl
@[simp] theorem takeInput_getReg (r : RegIdx) : (s.takeInput).getReg r = s.getReg r := rfl

@[simp] theorem emit_regs (v : Byte) : (s.emit v).regs = s.regs := rfl
@[simp] theorem emit_pc (v : Byte) : (s.emit v).pc = s.pc := rfl
@[simp] theorem emit_flag (v : Byte) : (s.emit v).flag = s.flag := rfl
@[simp] theorem emit_inx (v : Byte) : (s.emit v).inx = s.inx := rfl
@[simp] theorem emit_status (v : Byte) : (s.emit v).status = s.status := rfl
@[simp] theorem emit_mem (v : Byte) : (s.emit v).mem = s.mem := rfl
@[simp] theorem emit_input (v : Byte) : (s.emit v).input = s.input := rfl
@[simp] theorem emit_ic (v : Byte) : (s.emit v).ic = s.ic := rfl
@[simp] theorem emit_out (v : Byte) : (s.emit v).out = s.out ++ [v] := rfl
@[simp] theorem emit_getReg (v : Byte) (r : RegIdx) : (s.emit v).getReg r = s.getReg r := rfl

@[simp] theorem halt_regs (reason : Status) : (s.halt reason).regs = s.regs := rfl
@[simp] theorem halt_pc (reason : Status) : (s.halt reason).pc = s.pc := rfl
@[simp] theorem halt_flag (reason : Status) : (s.halt reason).flag = s.flag := rfl
@[simp] theorem halt_inx (reason : Status) : (s.halt reason).inx = s.inx := rfl
@[simp] theorem halt_status (reason : Status) : (s.halt reason).status = reason := rfl
@[simp] theorem halt_mem (reason : Status) : (s.halt reason).mem = s.mem := rfl
@[simp] theorem halt_input (reason : Status) : (s.halt reason).input = s.input := rfl
@[simp] theorem halt_ic (reason : Status) : (s.halt reason).ic = s.ic := rfl
@[simp] theorem halt_out (reason : Status) : (s.halt reason).out = s.out := rfl
@[simp] theorem halt_getReg (reason : Status) (r : RegIdx) : (s.halt reason).getReg r = s.getReg r := rfl

@[simp] theorem noOp_regs : (s.noOp).regs = s.regs := rfl
@[simp] theorem noOp_pc : (s.noOp).pc = s.pc + 2 := rfl
@[simp] theorem noOp_flag : (s.noOp).flag = false := rfl
@[simp] theorem noOp_inx : (s.noOp).inx = s.inx := rfl
@[simp] theorem noOp_status : (s.noOp).status = s.status := rfl
@[simp] theorem noOp_mem : (s.noOp).mem = s.mem := rfl
@[simp] theorem noOp_input : (s.noOp).input = s.input := rfl
@[simp] theorem noOp_ic : (s.noOp).ic = s.ic := rfl
@[simp] theorem noOp_out : (s.noOp).out = s.out := rfl
@[simp] theorem noOp_getReg (r : RegIdx) : (s.noOp).getReg r = s.getReg r := rfl

@[simp] theorem writeResult_regs (i : RegIdx) (v : Byte) : (s.writeResult i v).regs = s.regs.set i.toNat v i.isLt := rfl
@[simp] theorem writeResult_pc (i : RegIdx) (v : Byte) : (s.writeResult i v).pc = s.pc + 2 := rfl
@[simp] theorem writeResult_flag (i : RegIdx) (v : Byte) : (s.writeResult i v).flag = zero ((s.setReg i v).getReg i) := rfl
@[simp] theorem writeResult_inx (i : RegIdx) (v : Byte) : (s.writeResult i v).inx = s.inx := rfl
@[simp] theorem writeResult_status (i : RegIdx) (v : Byte) : (s.writeResult i v).status = s.status := rfl
@[simp] theorem writeResult_mem (i : RegIdx) (v : Byte) : (s.writeResult i v).mem = s.mem := rfl
@[simp] theorem writeResult_input (i : RegIdx) (v : Byte) : (s.writeResult i v).input = s.input := rfl
@[simp] theorem writeResult_ic (i : RegIdx) (v : Byte) : (s.writeResult i v).ic = s.ic := rfl
@[simp] theorem writeResult_out (i : RegIdx) (v : Byte) : (s.writeResult i v).out = s.out := rfl

/-- Two states with the same fields are the same state. -/
theorem State.ext_fields {s t : State} (regs : t.regs = s.regs) (pc : t.pc = s.pc) (flag : t.flag = s.flag)
    (inx : t.inx = s.inx) (status : t.status = s.status) (mem : t.mem = s.mem) (input : t.input = s.input)
    (ic : t.ic = s.ic) (out : t.out = s.out) : t = s := by
  cases s
  cases t
  simp_all

end Sys2Proof.Machine
end

