-- ==== Sys2Proof/Laws/Ops.lean ====
section
/-! SUPPORT. What each shared operation can do, said once: register reads after writes, the operand forms, the fetch,
the two streams, and what the shapes the meanings share leave. -/

namespace Sys2Proof.Machine

/-- A register read after a write of the register. -/
@[simp] theorem getReg_setReg_same (s : State) (i : RegIdx) (v : Byte) : (s.setReg i v).getReg i = v := by
  simp [State.getReg, State.setReg]

/-- A register read after a write of another register. -/
theorem getReg_setReg_other (s : State) {i r : RegIdx} (v : Byte) (ne : r ≠ i) :
    (s.setReg i v).getReg r = s.getReg r := by
  have h : i.toNat ≠ r.toNat := fun e => ne (BitVec.eq_of_toNat_eq e.symm)
  simp [State.getReg, State.setReg, h]

theorem getReg_setReg (s : State) (i r : RegIdx) (v : Byte) :
    (s.setReg i v).getReg r = if r = i then v else s.getReg r := by
  by_cases h : r = i
  · rw [if_pos h, h, getReg_setReg_same]
  · rw [if_neg h, getReg_setReg_other s v h]

/-- Writes of two registers may be made in either order. -/
theorem setReg_comm (s : State) {i j : RegIdx} (v w : Byte) (ne : i ≠ j) :
    (s.setReg i v).setReg j w = (s.setReg j w).setReg i v := by
  have h : i.toNat ≠ j.toNat := fun e => ne (BitVec.eq_of_toNat_eq e)
  simp [State.setReg, Vector.set_comm _ _ h]

/-- The last write of a register wins. -/
@[simp] theorem setReg_setReg (s : State) (i : RegIdx) (v w : Byte) :
    (s.setReg i v).setReg i w = s.setReg i w := by
  simp [State.setReg]

/-- Two states with the same registers, by reads. -/
theorem regs_ext {s t : State} (h : ∀ r : RegIdx, t.getReg r = s.getReg r) : t.regs = s.regs := by
  apply Vector.ext
  intro i hi
  have := h (BitVec.ofNat 4 i)
  have hi' : i % 16 = i := Nat.mod_eq_of_lt hi
  simpa [State.getReg, hi'] using this

/-- What the ten flag-setting instructions share leaves in each register. -/
theorem writeResult_getReg (s : State) (i r : RegIdx) (v : Byte) :
    (s.writeResult i v).getReg r = if r = i then v else s.getReg r := by
  simp [State.writeResult, getReg_setReg]

/-- And in the flag (40_step_cycle.md R98). -/
theorem writeResult_flag_eq (s : State) (i : RegIdx) (v : Byte) : (s.writeResult i v).flag = zero v := by
  simp

/-- `zero(a)` is 1 exactly when the byte is 0 (00_scope.md R8). -/
theorem zero_eq_true {a : Byte} : zero a = true ↔ a.toNat = 0 := by
  rw [zero, beq_iff_eq, ← BitVec.toNat_inj]
  rfl

/-- `sdisp(p)` is the signed reading of the byte (00_scope.md R9). -/
theorem sdisp_cases (p : Byte) :
    (p.toNat ≤ 127 ∧ sdisp p = (p.toNat : Int)) ∨ (127 < p.toNat ∧ sdisp p = (p.toNat : Int) - 256) := by
  unfold sdisp
  split <;> omega

theorem sdisp_toInt (p : Byte) : sdisp p = p.toInt := by
  revert p
  decide

theorem sdisp_range (p : Byte) : -128 ≤ sdisp p ∧ sdisp p ≤ 127 := by
  have := p.isLt
  rcases sdisp_cases p with h | h <;> omega

/-- A taken or untaken jump leaves the registers alone. -/
@[simp] theorem branch_getReg (s : State) (c : Bool) (d : Byte) (r : RegIdx) :
    (s.branch c d).getReg r = s.getReg r := by
  cases c <;> rfl

theorem branch_pc (s : State) (c : Bool) (d : Byte) :
    (s.branch c d).pc = if c = true then jumpTarget s.pc d else s.pc + 2 := by
  cases c <;> rfl

/-- A jump writes the pointer and the flag only. -/
theorem branch_eq (s : State) (c : Bool) (d : Byte) :
    s.branch c d = { s with pc := if c = true then jumpTarget s.pc d else s.pc + 2, flag := false } := by
  cases c <;> rfl

/-- IN's parameter names a register exactly when it is 15 or less (45_in_out.md R172). -/
theorem inRegister_some {p : Byte} {rd : RegIdx} : inRegister p = some rd ↔ p.toNat ≤ 15 ∧ rd = p.setWidth 4 := by
  unfold inRegister
  split
  · next h => simp [h, eq_comm]
  · next h => simp [h]

theorem inRegister_none {p : Byte} : inRegister p = none ↔ 16 ≤ p.toNat := by
  unfold inRegister
  split
  · next h => simp; omega
  · next h => simp; omega

/-- A byte is available exactly when the cursor shows one (10_state.md R37). -/
theorem inData_of_inAvail {s : State} (h : s.inAvail = true) : ∃ b, s.inData = some b := by
  simp only [State.inAvail, decide_eq_true_eq] at h
  exact ⟨s.input[s.ic], by simp [State.inData, h]⟩

theorem inData_none {s : State} : s.inData = none ↔ s.inAvail = false := by
  simp [State.inData, State.inAvail]

theorem inData_some {s : State} {b : Byte} (h : s.inData = some b) : s.inAvail = true := by
  cases ha : s.inAvail with
  | true => rfl
  | false => rw [inData_none.mpr ha] at h; cases h

/-- Out of bounds the fetch sees nothing (40_step_cycle.md R91). -/
theorem fetchWindow_out {s : State} (h : ¬ inBounds s.pc) : s.fetchWindow = [] := by
  simp only [State.fetchWindow, if_neg h]

/-- At address 255 there is no parameter byte (40_step_cycle.md R93). -/
theorem fetchWindow_top {s : State} (h : s.pc = 255) : s.fetchWindow = [s.mem.read 255] := by
  unfold State.fetchWindow inBounds
  rw [h, if_pos (by omega), if_neg (by omega)]
  rfl

/-- Anywhere else in bounds the fetch sees the opcode byte and the parameter byte. -/
theorem fetchWindow_pair {s : State} (lo : 0 ≤ s.pc) (hi : s.pc ≤ 254) :
    s.fetchWindow = [s.mem.read s.pc.toNat, s.mem.read (s.pc.toNat + 1)] := by
  unfold State.fetchWindow inBounds
  rw [if_pos ⟨lo, by omega⟩, if_pos ⟨by omega, by omega⟩, show (s.pc + 1).toNat = s.pc.toNat + 1 by omega]

end Sys2Proof.Machine
end

