-- ==== Sys2Proof/Laws/Exec.lean ====
section
/-! SUPPORT. What an instruction and a step can do, said once as inversion lemmas: the claims over all instructions are
case splits over these shapes, with no meaning unfolded again. -/

namespace Sys2Proof.Machine

/-- The jumps with the condition each reads (spec/42_jumps.md R131 to R134). -/
def jumpCondition (i : Instr) (s : State) : Option (Bool × Byte) :=
  match i with
  | .jmp d => some (true, d)
  | .jz d => some (s.flag, d)
  | .jnz d => some (!s.flag, d)
  | .jfe d => some (s.inx, d)
  | _ => none

/-- Everything a completed instruction can have done. -/
theorem exec_next_cases {i : Instr} {s t : State} (h : exec i s = .next t) :
    (i = .und0 ∧ t = s.halt .undefinedOpcode) ∨
    (∃ rd v, flagRegister i = some rd ∧ t = s.writeResult rd v) ∨
    (∃ taken d, jumpCondition i s = some (taken, d) ∧ flagRegister i = none ∧ t = s.branch taken d) ∨
    (∃ u, i = .ret u ∧ t = s.advance.clearFlag.halt .halted) ∨
    (∃ n b rd, i = .inp n ∧ s.inData = some b ∧ inRegister n = some rd ∧
      t = (s.advance.setReg rd b).takeInput.clearFlag) ∨
    (∃ n, i = .inp n ∧ s.inData = none ∧ t = s.advance.setInx.clearFlag) ∨
    (∃ rx u, i = .out rx u ∧ t = (s.advance.emit (s.getReg rx)).clearFlag) ∨
    (flagRegister i = none ∧ jumpCondition i s = none ∧ (∀ u, i ≠ .ret u) ∧ (∀ n, i ≠ .inp n) ∧
      (∀ rx u, i ≠ .out rx u) ∧ i ≠ .und0 ∧ t = s.noOp) := by
  cases i
  case inp n =>
    simp only [exec, execIn] at h
    split at h
    · next b hb =>
      split at h
      · next rd hrd =>
        cases h
        exact .inr (.inr (.inr (.inr (.inl ⟨n, b, rd, rfl, hb, hrd, rfl⟩))))
      · cases h
    · next hb =>
      cases h
      exact .inr (.inr (.inr (.inr (.inr (.inl ⟨n, rfl, hb, rfl⟩)))))
  case und0 => cases h; exact .inl ⟨rfl, rfl⟩
  case ret u => cases h; exact .inr (.inr (.inr (.inl ⟨u, rfl, rfl⟩)))
  case out rx u => cases h; exact .inr (.inr (.inr (.inr (.inr (.inr (.inl ⟨rx, u, rfl, rfl⟩))))))
  case inc | dec | mov | movc | lsl | lsr | add | sub | xor | or =>
    cases h; exact .inr (.inl ⟨_, _, rfl, rfl⟩)
  case jmp | jz | jnz | jfe => cases h; exact .inr (.inr (.inl ⟨_, _, rfl, rfl, rfl⟩))
  all_goals
    cases h
    refine .inr (.inr (.inr (.inr (.inr (.inr (.inr ⟨rfl, rfl, ?_, ?_, ?_, ?_, rfl⟩)))))) <;> intros <;> nofun

/-- An instruction never refuses, and faults only as IN with a byte available and no register to put it in (spec/45_in_out.md
R172, 60_exceptions.md R205). -/
theorem exec_total (i : Instr) (s : State) :
    (∃ t, exec i s = .next t) ∨
    (∃ n, i = .inp n ∧ s.inAvail = true ∧ 16 ≤ n.toNat ∧ exec i s = .fault (.inRegIndex n)) := by
  cases i
  case inp n =>
    simp only [exec, execIn]
    split
    · next b hb =>
      split
      · exact .inl ⟨_, rfl⟩
      · next hn => exact .inr ⟨n, rfl, inData_some hb, inRegister_none.mp hn, rfl⟩
    · exact .inl ⟨_, rfl⟩
  all_goals exact .inl ⟨_, rfl⟩

/-- IN with a byte available and a register to put it in (spec/45_in_out.md R171). -/
theorem exec_inp_take {s : State} {n b : Byte} {rd : RegIdx} (hb : s.inData = some b) (hr : inRegister n = some rd) :
    exec (.inp n) s = .next ((s.advance.setReg rd b).takeInput.clearFlag) := by
  simp only [exec, execIn, hb, hr]

/-- IN with no byte available (R171). -/
theorem exec_inp_empty {s : State} (n : Byte) (hb : s.inData = none) :
    exec (.inp n) s = .next s.advance.setInx.clearFlag := by
  simp only [exec, execIn, hb]

/-- IN with a byte available and no register to put it in (R172). -/
theorem exec_inp_fault {s : State} {n b : Byte} (hb : s.inData = some b) (hr : inRegister n = none) :
    exec (.inp n) s = .fault (.inRegIndex n) := by
  simp only [exec, execIn, hb, hr]

/-- An instruction whose next state is `writeResult` completes as the flag-setting instructions do. -/
theorem completesWriting_of {i : Instr} {s : State} {rd : RegIdx} {b : Byte} {v : Nat}
    (h : exec i s = .next (s.writeResult rd b)) (hv : b.toNat = v) : CompletesWriting i s rd v := by
  refine ⟨_, h, ?_, ?_, ?_, rfl, rfl, rfl, rfl, rfl, rfl, fun _ => rfl⟩
  · rw [writeResult_getReg, if_pos rfl, hv]
  · intro r hr
    rw [writeResult_getReg, if_neg hr]
  · rw [writeResult_flag_eq, zero_eq_true, hv]

/-- An instruction whose next state is `branch` completes at its target or past itself. -/
theorem completesAt_of_branch {i : Instr} {s : State} {taken : Bool} {d : Byte} {v : Int}
    (h : exec i s = .next (s.branch taken d)) (hv : v = if taken = true then s.pc + d.toInt else s.pc + 2) :
    CompletesAt i s v := by
  refine ⟨_, h, ?_, ?_, fun r => branch_getReg .., ?_⟩
  · rw [branch_pc, hv, jumpTarget, sdisp_toInt]
  · rw [branch_eq]
  · rw [branch_eq]
    exact ⟨rfl, rfl, rfl, rfl, rfl, fun _ => rfl⟩

/-- An instruction whose next state is `noOp` completes past itself. -/
theorem completesAt_of_noOp {i : Instr} {s : State} (h : exec i s = .next s.noOp) : CompletesAt i s (s.pc + 2) :=
  ⟨_, h, rfl, rfl, fun _ => rfl, rfl, rfl, rfl, rfl, rfl, fun _ => rfl⟩

/-- What booting answers (spec/70_reset_and_hazards.md R233). -/
theorem boot_some {image input : List Byte} {s : State} :
    State.boot image input = some s ↔
      image.length ≤ Config.memSize ∧ s = { State.reset with mem := Memory.ofImage image, input := input } := by
  unfold State.boot
  split <;> simp_all [eq_comm]

/-- A step from a running state is its fetch followed by the instruction. -/
theorem step_running {s : State} (h : s.status = .running) :
    step s = match s.fetch with
      | .error reason => .next (s.halt reason)
      | .ok i => exec i s := by
  cases hf : s.fetch <;> simp [step, h, hf]

/-- A terminal state has no step (spec/60_exceptions.md R213). -/
theorem step_terminal {s : State} (h : s.status ≠ .running) : step s = .fault (.terminal s.status) := by
  unfold step
  split
  · next hs => exact absurd hs h
  · rfl

/-- Everything a step that answers a next state can have done. -/
theorem step_next_cases {s t : State} (h : step s = .next t) :
    s.status = .running ∧
    ((∃ reason, s.fetch = .error reason ∧ t = s.halt reason) ∨ (∃ i, s.fetch = .ok i ∧ exec i s = .next t)) := by
  by_cases hs : s.status = .running
  · refine ⟨hs, ?_⟩
    rw [step_running hs] at h
    split at h
    · next r hr => cases h; exact .inl ⟨r, hr, rfl⟩
    · next i hi => exact .inr ⟨i, hi, h⟩
  · rw [step_terminal hs] at h
    cases h

/-- The fetch, by where the pointer stands (spec/40_step_cycle.md R91 to R93). -/
theorem fetch_cases (s : State) :
    (¬ inBounds s.pc ∧ s.fetch = .error .instructionsExhausted) ∨
    (inBounds s.pc ∧ s.mem.read s.pc.toNat = 0 ∧ s.fetch = .ok .und0) ∨
    (s.pc = 255 ∧ s.mem.read 255 ≠ 0 ∧ s.fetch = .error .missingParameter) ∨
    (0 ≤ s.pc ∧ s.pc ≤ 254 ∧ s.mem.read s.pc.toNat ≠ 0 ∧
      s.fetch = .ok (decodePair (s.mem.read s.pc.toNat) (s.mem.read (s.pc.toNat + 1)))) := by
  by_cases hb : inBounds s.pc
  · by_cases ht : s.pc = 255
    · have hw := fetchWindow_top ht
      by_cases hz : s.mem.read 255 = 0
      · refine .inr (.inl ⟨hb, by rw [ht]; exact hz, ?_⟩)
        simp [State.fetch, hw, hz]
      · refine .inr (.inr (.inl ⟨ht, hz, ?_⟩))
        simp [State.fetch, hw, decode_single hz]
    · have hw := fetchWindow_pair hb.1 (by have := hb.2; omega)
      by_cases hz : s.mem.read s.pc.toNat = 0
      · refine .inr (.inl ⟨hb, hz, ?_⟩)
        simp [State.fetch, hw, hz]
      · refine .inr (.inr (.inr ⟨hb.1, by have := hb.2; omega, hz, ?_⟩))
        simp [State.fetch, hw, decode_pair _ _ hz]
  · refine .inl ⟨hb, ?_⟩
    simp [State.fetch, fetchWindow_out hb, decode]

/-- No instruction touches program memory or the input sequence (spec/00_scope.md R6, 20_memory.md R52). -/
theorem exec_mem_input {i : Instr} {s t : State} (h : exec i s = .next t) : t.mem = s.mem ∧ t.input = s.input := by
  rcases exec_next_cases h with ⟨-, rfl⟩ | ⟨rd, v, -, rfl⟩ | ⟨c, d, -, -, rfl⟩ | ⟨u, -, rfl⟩ | ⟨n, b, rd, -, -, -, rfl⟩ |
    ⟨n, -, -, rfl⟩ | ⟨rx, u, -, rfl⟩ | ⟨-, -, -, -, -, -, rfl⟩
  case inr.inr.inl => rw [branch_eq]; exact ⟨rfl, rfl⟩
  all_goals exact ⟨rfl, rfl⟩

/-- Nor does a step. -/
theorem step_mem_input {s t : State} (h : step s = .next t) : t.mem = s.mem ∧ t.input = s.input := by
  obtain ⟨-, ⟨r, -, rfl⟩ | ⟨i, -, hi⟩⟩ := step_next_cases h
  · exact ⟨rfl, rfl⟩
  · exact exec_mem_input hi

/-- What holds at a state and is kept by every step holds at every state of a run: the induction, once. -/
theorem Runs.induct_on {P : State → Prop} {s t : State} {trace : List Ports} (run : Runs s trace t) (start : P s)
    (keeps : ∀ u v, P u → step u = .next v → P v) : P t := by
  induction run with
  | start => exact start
  | more _ last ih => exact keeps _ _ ih last

end Sys2Proof.Machine
end

