-- ==== Sys2Proof/Laws/PerInstr.lean ====
section
/-! SUPPORT. The family of statements about each instruction as syntax: its opcode byte lies in its row of the opcode
table, and it is as long as its format says (spec/30_encoding.md R70, R73, R75, R78, R84). -/

namespace Sys2Proof.Laws.OpcodeByte

/-- A well-formed instruction's first byte matches the high byte of its row, whatever the parameter, and it has a
parameter byte exactly when its format is not `z`. -/
def Statement (i : Instr) : Prop :=
  i.wellFormed = true →
    (∀ p, i.row.holds (instrWord i.opcode p) = true) ∧ (encode i).length = if i.row.format = .z then 1 else 2

/-- The mask of a row takes in no bit of the parameter, so the opcode byte decides. -/
theorem holds_of_opcode {r : OpcodeRow} {op m k : Byte} (p : Byte) (h : inRange op m k = true)
    (hm : r.matchBits = instrWord m 0) (hk : r.maskBits = instrWord k 0) : r.holds (instrWord op p) = true := by
  simp only [inRange, beq_iff_eq] at h
  simp only [OpcodeRow.holds, hm, hk, instrWord, beq_iff_eq]
  rw [BitVec.and_append, h]
  simp

theorem und0 : Statement (.und0) :=
  fun _ => ⟨fun p => holds_of_opcode (op := 0x00) (m := 0x00) (k := 0xFF) p (by decide) rfl rfl, rfl⟩

theorem inc (rx : RegIdx) (u : Nibble) : Statement (.inc rx u) :=
  fun _ => ⟨fun p => holds_of_opcode (op := 0x01) (m := 0x01) (k := 0xFF) p (by decide) rfl rfl, rfl⟩

theorem dec (rx : RegIdx) (u : Nibble) : Statement (.dec rx u) :=
  fun _ => ⟨fun p => holds_of_opcode (op := 0x02) (m := 0x02) (k := 0xFF) p (by decide) rfl rfl, rfl⟩

theorem mov (rx : RegIdx) (ry : RegIdx) : Statement (.mov rx ry) :=
  fun _ => ⟨fun p => holds_of_opcode (op := 0x03) (m := 0x03) (k := 0xFF) p (by decide) rfl rfl, rfl⟩

theorem movc (k : Byte) : Statement (.movc k) :=
  fun _ => ⟨fun p => holds_of_opcode (op := 0x04) (m := 0x04) (k := 0xFF) p (by decide) rfl rfl, rfl⟩

theorem lsl (rx : RegIdx) (u : Nibble) : Statement (.lsl rx u) :=
  fun _ => ⟨fun p => holds_of_opcode (op := 0x05) (m := 0x05) (k := 0xFF) p (by decide) rfl rfl, rfl⟩

theorem lsr (rx : RegIdx) (u : Nibble) : Statement (.lsr rx u) :=
  fun _ => ⟨fun p => holds_of_opcode (op := 0x06) (m := 0x06) (k := 0xFF) p (by decide) rfl rfl, rfl⟩

theorem jmp (d : Byte) : Statement (.jmp d) :=
  fun _ => ⟨fun p => holds_of_opcode (op := 0x07) (m := 0x07) (k := 0xFF) p (by decide) rfl rfl, rfl⟩

theorem jz (d : Byte) : Statement (.jz d) :=
  fun _ => ⟨fun p => holds_of_opcode (op := 0x08) (m := 0x08) (k := 0xFF) p (by decide) rfl rfl, rfl⟩

theorem jnz (d : Byte) : Statement (.jnz d) :=
  fun _ => ⟨fun p => holds_of_opcode (op := 0x09) (m := 0x09) (k := 0xFF) p (by decide) rfl rfl, rfl⟩

theorem jfe (d : Byte) : Statement (.jfe d) :=
  fun _ => ⟨fun p => holds_of_opcode (op := 0x0A) (m := 0x0A) (k := 0xFF) p (by decide) rfl rfl, rfl⟩

theorem ret (u : Byte) : Statement (.ret u) :=
  fun _ => ⟨fun p => holds_of_opcode (op := 0x0B) (m := 0x0B) (k := 0xFF) p (by decide) rfl rfl, rfl⟩

theorem add (rx : RegIdx) (ry : RegIdx) : Statement (.add rx ry) :=
  fun _ => ⟨fun p => holds_of_opcode (op := 0x0C) (m := 0x0C) (k := 0xFF) p (by decide) rfl rfl, rfl⟩

theorem sub (rx : RegIdx) (ry : RegIdx) : Statement (.sub rx ry) :=
  fun _ => ⟨fun p => holds_of_opcode (op := 0x0D) (m := 0x0D) (k := 0xFF) p (by decide) rfl rfl, rfl⟩

theorem xor (rx : RegIdx) (ry : RegIdx) : Statement (.xor rx ry) :=
  fun _ => ⟨fun p => holds_of_opcode (op := 0x0E) (m := 0x0E) (k := 0xFF) p (by decide) rfl rfl, rfl⟩

theorem or (rx : RegIdx) (ry : RegIdx) : Statement (.or rx ry) :=
  fun _ => ⟨fun p => holds_of_opcode (op := 0x0F) (m := 0x0F) (k := 0xFF) p (by decide) rfl rfl, rfl⟩

theorem inp (n : Byte) : Statement (.inp n) :=
  fun _ => ⟨fun p => holds_of_opcode (op := 0x10) (m := 0x10) (k := 0xFF) p (by decide) rfl rfl, rfl⟩

theorem out (rx : RegIdx) (u : Nibble) : Statement (.out rx u) :=
  fun _ => ⟨fun p => holds_of_opcode (op := 0x11) (m := 0x11) (k := 0xFF) p (by decide) rfl rfl, rfl⟩

theorem nopr12 (op u : Byte) : Statement (.nopr12 op u) :=
  fun wf => ⟨fun p => holds_of_opcode (m := 0x12) (k := 0xFE) p wf rfl rfl, rfl⟩

theorem nopr14 (op u : Byte) : Statement (.nopr14 op u) :=
  fun wf => ⟨fun p => holds_of_opcode (m := 0x14) (k := 0xFC) p wf rfl rfl, rfl⟩

theorem nopr18 (op u : Byte) : Statement (.nopr18 op u) :=
  fun wf => ⟨fun p => holds_of_opcode (m := 0x18) (k := 0xF8) p wf rfl rfl, rfl⟩

theorem nopr20 (op u : Byte) : Statement (.nopr20 op u) :=
  fun wf => ⟨fun p => holds_of_opcode (m := 0x20) (k := 0xE0) p wf rfl rfl, rfl⟩

theorem nopr40 (op u : Byte) : Statement (.nopr40 op u) :=
  fun wf => ⟨fun p => holds_of_opcode (m := 0x40) (k := 0xC0) p wf rfl rfl, rfl⟩

theorem nopr80 (op u : Byte) : Statement (.nopr80 op u) :=
  fun wf => ⟨fun p => holds_of_opcode (m := 0x80) (k := 0x80) p wf rfl rfl, rfl⟩

end Sys2Proof.Laws.OpcodeByte
end

