-- ==== Sys2Proof/Laws/Ports.lean ====
section
/-! SUPPORT. When the ports carry what: the instruction a step runs, the byte it takes and the byte it emits. -/

namespace Sys2Proof.Machine

/-- The instruction the step runs is the one a running state fetches. -/
theorem current_some {s : State} {i : Instr} : s.current = some i ↔ s.status = .running ∧ s.fetch = .ok i := by
  unfold State.current
  split
  · next hs hf => rw [hs, hf]; simp
  · next h => simp; intro hs hf; exact h _ hs hf

/-- The step takes a byte when it runs IN with a byte available and a register to put it in. -/
theorem takesInput_true {s : State} :
    s.takesInput = true ↔
      ∃ n b rd, s.current = some (.inp n) ∧ s.inData = some b ∧ inRegister n = some rd := by
  unfold State.takesInput
  split
  · next n hn =>
    rw [hn]
    constructor
    · intro h
      simp at h
      obtain ⟨b, hb⟩ := inData_of_inAvail h.1
      obtain ⟨rd, hr⟩ := Option.isSome_iff_exists.mp h.2
      exact ⟨n, b, rd, rfl, hb, hr⟩
    · rintro ⟨m, b, rd, h, hb, hr⟩
      cases h
      simp [inData_some hb, hr]
  · next h => simp; intro n hn; exact absurd hn (h n)

/-- The step emits a byte when it runs OUT. -/
theorem emitsByte_some {s : State} {b : Byte} :
    s.emitsByte = some b ↔ ∃ rx u, s.current = some (.out rx u) ∧ b = s.getReg rx := by
  unfold State.emitsByte
  split
  · next rx u hn => rw [hn]; simp [eq_comm]
  · next h => simp; intro rx u hn; exact absurd hn (h rx u)

/-- An instruction that is not IN takes no byte. -/
theorem takesInput_false {s : State} {i : Instr} (hc : s.current = some i) (h : ∀ n, i ≠ .inp n) :
    s.takesInput = false := by
  cases ht : s.takesInput with
  | false => rfl
  | true =>
    obtain ⟨n, b, rd, hn, -⟩ := takesInput_true.mp ht
    rw [hc] at hn
    cases hn
    exact absurd rfl (h n)

/-- An instruction that is not OUT emits none. -/
theorem emitsByte_none {s : State} {i : Instr} (hc : s.current = some i) (h : ∀ rx u, i ≠ .out rx u) :
    s.emitsByte = none := by
  cases ht : s.emitsByte with
  | none => rfl
  | some b =>
    obtain ⟨rx, u, hn, -⟩ := emitsByte_some.mp ht
    rw [hc] at hn
    cases hn
    exact absurd rfl (h rx u)

end Sys2Proof.Machine
end

