-- ==== Sys2Proof/Tests/Slice0.lean ====
section
/-! SUPPORT. The model's own tests: the WellFormed smoke test, a word for every constructor written out from the spec's
encodings, single steps from spec/95_test_vectors.md (each test names its vector), and for every statement with
hypotheses a witness that meets them. -/

namespace Sys2Proof.Tests

open Sys2Proof.Machine

/-- The next state of an outcome, if it has one. -/
def nextOf : Host.Outcome State Fault Refusal → Option State
  | .next s => some s
  | .fault _ => none
  | .refused _ => none

/-- The fault of an outcome, if it is one. -/
def faultOf : Host.Outcome State Fault Refusal → Option Fault
  | .next _ => none
  | .fault r => some r
  | .refused _ => none

/-- What is seen of the state after one step. -/
def after {α : Type} (s : State) (see : State → α) : Option α := (nextOf (step s)).map see

/-- A running state about to fetch two bytes at an address, all else as at reset. -/
def placed (a : Nat) (op p : Byte) : State :=
  { State.reset with pc := a, mem := (Memory.write [] a op).write (a + 1) p }

/-- A running state with the pointer at `a` and one listed byte, at address 255. -/
def atTop (a : Int) (op : Byte) : State := { State.reset with pc := a, mem := Memory.write [] 255 op }

/-- A state with the input `input` and the cursor at `k`. -/
def reading (s : State) (k : Nat) (input : List Byte) : State := { s with input := input, ic := k }

theorem next_of_isSome {o : Host.Outcome State Fault Refusal} (h : (nextOf o).isSome = true) : ∃ t, o = .next t := by
  cases o with
  | next s => exact ⟨s, rfl⟩
  | fault r => cases h
  | refused r => cases h

/-! ## WellFormed: an ill-formed term for each check -/

theorem test_wellFormed_refuses_nopr12 : (Instr.nopr12 0x14 0).wellFormed = false := by decide
theorem test_wellFormed_refuses_nopr14 : (Instr.nopr14 0x18 0).wellFormed = false := by decide
theorem test_wellFormed_refuses_nopr18 : (Instr.nopr18 0x17 0).wellFormed = false := by decide
theorem test_wellFormed_refuses_nopr20 : (Instr.nopr20 0x1F 0).wellFormed = false := by decide
theorem test_wellFormed_refuses_nopr40 : (Instr.nopr40 0x80 0).wellFormed = false := by decide
theorem test_wellFormed_refuses_nopr80 : (Instr.nopr80 0x7F 0).wellFormed = false := by decide
theorem test_wellFormed_accepts_ends_of_ranges :
    (Instr.nopr12 0x12 0).wellFormed ∧ (Instr.nopr12 0x13 0).wellFormed ∧ (Instr.nopr14 0x17 0).wellFormed ∧
    (Instr.nopr18 0x1F 0).wellFormed ∧ (Instr.nopr20 0x3F 0).wellFormed ∧ (Instr.nopr40 0x7F 0).wellFormed ∧
    (Instr.nopr80 0x80 0).wellFormed ∧ (Instr.nopr80 0xFF 0).wellFormed := by decide

/-! ## Decoding: a word for every constructor, bits 15 to 0 from 30_encoding.md R71, R75, R78 -/

theorem test_decode_inc_to_lsr :
    decodeTableWord 16 0b0000000110100011 = some (.inc 3 0xA) ∧
    decodeTableWord 16 0b0000001000001111 = some (.dec 15 0) ∧
    decodeTableWord 16 0b0000001100000001 = some (.mov 1 0) ∧
    decodeTableWord 16 0b0000010000110101 = some (.movc 0x35) ∧
    decodeTableWord 16 0b0000010100000010 = some (.lsl 2 0) ∧
    decodeTableWord 16 0b0000011001110010 = some (.lsr 2 7) := by decide
theorem test_decode_jumps :
    decodeTableWord 16 0b0000011111111010 = some (.jmp 0xFA) ∧
    decodeTableWord 16 0b0000100000000100 = some (.jz 4) ∧
    decodeTableWord 16 0b0000100111111100 = some (.jnz 0xFC) ∧
    decodeTableWord 16 0b0000101000000110 = some (.jfe 6) := by decide
theorem test_decode_ret : decodeTableWord 16 0b0000101111101110 = some (.ret 0xEE) := by decide
theorem test_decode_add_to_or :
    decodeTableWord 16 0b0000110000010010 = some (.add 2 1) ∧
    decodeTableWord 16 0b0000110101010100 = some (.sub 4 5) ∧
    decodeTableWord 16 0b0000111000100001 = some (.xor 1 2) ∧
    decodeTableWord 16 0b0000111100100001 = some (.or 1 2) := by decide
theorem test_decode_in_out :
    decodeTableWord 16 0b0001000000010000 = some (.inp 0x10) ∧
    decodeTableWord 16 0b0001000100100000 = some (.out 0 2) := by decide
theorem test_decode_reserved :
    decodeTableWord 16 0b0000000001010101 = some .und0 ∧
    decodeTableWord 16 0b0001001100000000 = some (.nopr12 0x13 0) ∧
    decodeTableWord 16 0b0001010000000001 = some (.nopr14 0x14 1) ∧
    decodeTableWord 16 0b0001111110000000 = some (.nopr18 0x1F 0x80) ∧
    decodeTableWord 16 0b0010000011111111 = some (.nopr20 0x20 0xFF) ∧
    decodeTableWord 16 0b0111111100000000 = some (.nopr40 0x7F 0) ∧
    decodeTableWord 16 0b1111111110011001 = some (.nopr80 0xFF 0x99) := by decide
theorem test_decode_refuses_by_name :
    decode [] = .error .noOpcode ∧ decode [0x11] = .error .noParameter ∧ decode [0x00] = .ok (.und0, []) := by
  refine ⟨rfl, rfl, rfl⟩
theorem test_encode_words :
    encode (.add 2 1) = [0x0C, 0x12] ∧ encode (.inp 0x10) = [0x10, 0x10] ∧ encode .und0 = [0x00] ∧
    encode (Instr.clearIgnored (.out 0 2)) = [0x11, 0x00] := by decide
theorem test_table_mnemonics_in_order :
    opcodeTable.map (·.mnemonic) =
      ["UND0", "INC", "DEC", "MOV", "MOVC", "LSL", "LSR", "JMP", "JZ", "JNZ", "JFE", "RET", "ADD", "SUB", "XOR", "OR",
        "IN", "OUT", "NOPR", "NOPR", "NOPR", "NOPR", "NOPR", "NOPR"] := by decide

/-! ## Single steps, expected results from spec/95_test_vectors.md -/

/-- V2 -/
theorem test_inc_wraps :
    after ((placed 0x10 0x01 0x03).setReg 3 0xFF) (fun t => (t.getReg 3, t.flag, t.pc)) = some (0, true, 0x12) := by
  decide
/-- V3 -/
theorem test_inc_ignores_high_nibble :
    after ((((placed 0x10 0x01 0xA3).setReg 10 0x55).setFlag true)) (fun t => (t.getReg 3, t.getReg 10, t.flag)) =
      some (1, 0x55, false) := by decide
/-- V4 -/
theorem test_dec_to_zero :
    after ((placed 0x10 0x02 0x00).setReg 0 1) (fun t => (t.getReg 0, t.flag, t.pc)) = some (0, true, 0x12) := by decide
/-- V5 -/
theorem test_dec_wraps :
    after ((placed 0x10 0x02 0x00).setFlag true) (fun t => (t.getReg 0, t.flag)) = some (0xFF, false) := by decide
/-- V7 -/
theorem test_mov_low_nibble_is_destination :
    after (((placed 0x10 0x03 0x01).setReg 0 5).setReg 1 9) (fun t => (t.getReg 0, t.getReg 1, t.flag)) =
      some (5, 5, false) := by decide
/-- V9 -/
theorem test_mov_of_itself_tests_zero :
    after (placed 0x10 0x03 0x44) (fun t => (t.getReg 4, t.flag)) = some (0, true) := by decide
/-- V12 -/
theorem test_movc_zero_sets_flag :
    after ((placed 0x10 0x04 0x00).setReg 0 0x33) (fun t => (t.getReg 0, t.flag)) = some (0, true) := by decide
/-- V13 -/
theorem test_movc_writes_register_zero :
    after (((placed 0x10 0x04 0x35).setReg 3 1).setReg 5 2) (fun t => (t.getReg 0, t.getReg 3, t.getReg 5)) =
      some (0x35, 1, 2) := by decide
/-- V16 -/
theorem test_lsl_loses_top_bit :
    after ((placed 0x10 0x05 0x02).setReg 2 0x80) (fun t => (t.getReg 2, t.flag)) = some (0, true) := by decide
/-- V17 -/
theorem test_lsl_of_ff :
    after ((placed 0x10 0x05 0x02).setReg 2 0xFF) (fun t => (t.getReg 2, t.flag)) = some (0xFE, false) := by decide
/-- V20 -/
theorem test_lsr_loses_low_bit :
    after ((placed 0x10 0x06 0x02).setReg 2 0x01) (fun t => (t.getReg 2, t.flag)) = some (0, true) := by decide
/-- V21 -/
theorem test_lsr_is_logical :
    after ((placed 0x10 0x06 0x02).setReg 2 0x80) (fun t => (t.getReg 2, t.flag)) = some (0x40, false) := by decide
/-- V34 -/
theorem test_jmp_below_zero :
    after (placed 0x10 0x07 0x80) (fun t => (t.pc, t.status)) = some (-112, .running) := by decide
/-- V37 -/
theorem test_jmp_to_greatest_pointer :
    after (placed 0xFE 0x07 0x7F) (fun t => (t.pc, t.status)) = some (381, .running) := by decide
/-- V40 -/
theorem test_jz_taken :
    after ((placed 0x10 0x08 0x04).setFlag true) (fun t => (t.pc, t.flag)) = some (0x14, false) := by decide
/-- V41 -/
theorem test_jz_not_taken : after (placed 0x10 0x08 0x04) (fun t => (t.pc, t.flag)) = some (0x12, false) := by decide
/-- V43 -/
theorem test_jnz_taken : after (placed 0x10 0x09 0xFC) (fun t => (t.pc, t.flag)) = some (0x0C, false) := by decide
/-- V44 -/
theorem test_jnz_not_taken :
    after ((placed 0x10 0x09 0xFC).setFlag true) (fun t => (t.pc, t.flag)) = some (0x12, false) := by decide
/-- V45 -/
theorem test_jfe_taken :
    after (((placed 0x10 0x0A 0x06).setFlag true).setInx) (fun t => (t.pc, t.flag, t.inx)) =
      some (0x16, false, true) := by decide
/-- V46 -/
theorem test_jfe_reads_latch_not_flag :
    after ((placed 0x10 0x0A 0x06).setFlag true) (fun t => (t.pc, t.flag, t.inx)) = some (0x12, false, false) := by
  decide
/-- V51 -/
theorem test_ret_any_parameter :
    after (placed 0x04 0x0B 0xEE) (fun t => (t.pc, t.flag, t.status)) = some (0x06, false, .halted) := by decide
/-- V52 -/
theorem test_ret_in_last_slot :
    after (placed 0xFE 0x0B 0x00) (fun t => (t.pc, t.status)) = some (256, .halted) := by decide
/-- V61 -/
theorem test_add_wraps :
    after (((placed 0x10 0x0C 0x12).setReg 2 0xC8).setReg 1 0x64) (fun t => (t.getReg 1, t.getReg 2, t.flag)) =
      some (0x64, 0x2C, false) := by decide
/-- V63 -/
theorem test_add_to_itself :
    after ((placed 0x10 0x0C 0x33).setReg 3 0x80) (fun t => (t.getReg 3, t.flag)) = some (0, true) := by decide
/-- V65 -/
theorem test_sub_order :
    after (((placed 0x10 0x0D 0x54).setReg 4 0x10).setReg 5 0x20) (fun t => (t.getReg 4, t.getReg 5, t.flag)) =
      some (0xF0, 0x20, false) := by decide
/-- V68 -/
theorem test_sub_from_itself :
    after ((placed 0x10 0x0D 0x66).setReg 6 0xAB) (fun t => (t.getReg 6, t.flag)) = some (0, true) := by decide
/-- V69 -/
theorem test_xor_bits :
    after (((placed 0x10 0x0E 0x21).setReg 1 0xF0).setReg 2 0xAA) (fun t => (t.getReg 1, t.getReg 2, t.flag)) =
      some (0x5A, 0xAA, false) := by decide
/-- V71 -/
theorem test_xor_clears_itself :
    after ((placed 0x10 0x0E 0x99).setReg 9 0xFF) (fun t => (t.getReg 9, t.flag)) = some (0, true) := by decide
/-- V72 -/
theorem test_or_bits :
    after (((placed 0x10 0x0F 0x21).setReg 1 0xF0).setReg 2 0x0A) (fun t => (t.getReg 1, t.getReg 2, t.flag)) =
      some (0xFA, 0x0A, false) := by decide
/-- V75 -/
theorem test_or_of_itself_keeps_it :
    after (((placed 0x10 0x0F 0x77).setReg 7 9).setFlag true) (fun t => (t.getReg 7, t.flag)) = some (9, false) := by
  decide
/-- V84 -/
theorem test_in_of_zero_byte_clears_flag :
    after (reading (((placed 0x10 0x10 0x05).setReg 5 0x77).setFlag true) 0 [0x00])
      (fun t => (t.getReg 5, t.flag, t.inx, t.ic)) = some (0, false, false, 1) := by decide
/-- V87 and V88: the fault needs both an index of 16 and a byte. -/
theorem test_in_index_sixteen :
    faultOf (step (reading (placed 0x10 0x10 0x10) 0 [0x07])) = some (.inRegIndex 0x10) ∧
    after (reading (placed 0x10 0x10 0x10) 1 [0x07]) (fun t => (t.flag, t.inx, t.ic, t.pc)) =
      some (false, true, 1, 0x12) := by decide
/-- V91 -/
theorem test_out_low_nibble :
    after (((placed 0x10 0x11 0x20).setReg 0 0x41).setReg 2 0x42) (fun t => t.out) = some [0x41] := by decide
/-- V93 -/
theorem test_out_appends :
    after { (placed 0x10 0x11 0x0F).setReg 15 0xFF with out := [0x01, 0x02] } (fun t => t.out) =
      some [0x01, 0x02, 0xFF] := by decide
/-- V100 -/
theorem test_und0_keeps_flag_and_pointer :
    after ((placed 0x06 0x00 0x55).setFlag true) (fun t => (t.flag, t.pc, t.status)) =
      some (true, 0x06, .undefinedOpcode) := by decide
/-- V101: the zero test comes before the parameter test. -/
theorem test_und0_at_top : after (atTop 255 0x00) (fun t => (t.pc, t.status)) = some (0xFF, .undefinedOpcode) := by
  decide
/-- V102 -/
theorem test_nopr80_clears_flag :
    after ((placed 0x20 0xFF 0x99).setFlag true) (fun t => (t.pc, t.flag, t.status)) = some (0x22, false, .running) := by
  decide
/-- V104: opcode 0x80 with parameter 0x10 is no IN. -/
theorem test_nopr80_takes_no_input : after (reading (placed 0x20 0x80 0x10) 0 [0x07]) (fun t => t.ic) = some 0 := by
  decide
/-- V103 -/
theorem test_nopr12_clears_flag :
    after (((placed 0x20 0x12 0x00).setReg 0 7).setFlag true) (fun t => (t.pc, t.flag, t.getReg 0)) =
      some (0x22, false, 7) := by decide
/-- 46_reserved_opcodes.md R186: the other four rows. -/
theorem test_nopr_other_rows :
    after ((placed 0x20 0x14 0x00).setFlag true) (fun t => (t.pc, t.flag)) = some (0x22, false) ∧
    after ((placed 0x20 0x1F 0x00).setFlag true) (fun t => (t.pc, t.flag)) = some (0x22, false) ∧
    after ((placed 0x20 0x3F 0x00).setFlag true) (fun t => (t.pc, t.flag)) = some (0x22, false) ∧
    after ((placed 0x20 0x40 0x00).setFlag true) (fun t => (t.pc, t.flag)) = some (0x22, false) := by decide
/-- V53, V105, V106 -/
theorem test_missing_parameter :
    after (atTop 255 0x0B) (fun t => (t.pc, t.status)) = some (255, .missingParameter) ∧
    after (atTop 255 0x12) (fun t => (t.pc, t.status)) = some (255, .missingParameter) := by decide
/-- V107, V108, V110 -/
theorem test_instructions_exhausted :
    after ((atTop 256 0).setFlag true) (fun t => (t.pc, t.flag, t.status)) =
      some (256, true, .instructionsExhausted) ∧
    after (atTop (-2) 0) (fun t => (t.pc, t.status)) = some (-2, .instructionsExhausted) ∧
    after (atTop 381 0) (fun t => (t.pc, t.status)) = some (381, .instructionsExhausted) := by decide
/-- 60_exceptions.md R201 -/
theorem test_status_codes :
    [Status.running, .instructionsExhausted, .undefinedOpcode, .missingParameter, .halted, .faultedInRegIndex].map
      Status.code = [0, 1, 2, 3, 4, 5] := by decide
/-- The host's own question: a placed word is the first instruction after reset. -/
theorem test_first_instruction_after_reset :
    after (State.reset.withFetchWord 16 0x0441) (fun t => (t.getReg 0, t.pc)) = some (0x41, 2) := by decide

/-! ## Witnesses: a state and operands that meet the hypotheses of each statement that has some, at the ends of ranges -/

theorem witness_InTakesNextByte :
    (reading State.reset 0 [7]).ic < (reading State.reset 0 [7]).input.length ∧ (0#8).toNat ≤ 15 ∧
    (15#8).toNat ≤ 15 := by decide
theorem witness_InWithoutByteSetsLatch :
    (reading State.reset 1 [7]).input.length ≤ (reading State.reset 1 [7]).ic := by decide
theorem witness_InFaultsWithoutRegister :
    (reading State.reset 0 [7]).ic < (reading State.reset 0 [7]).input.length ∧ 16 ≤ (16#8).toNat ∧
    16 ≤ (255#8).toNat := by decide
theorem witness_ReservedOpcodesDoNothing : 0x12 ≤ (0x12#8).toNat ∧ 0x12 ≤ (0xFF#8).toNat := by decide
theorem witness_FirstStepFetchesFromZero : ∃ i rest,
    decode [State.reset.mem.read 0, State.reset.mem.read 1] = .ok (i, rest) := ⟨.und0, [0], rfl⟩
theorem witness_BootLoadsPaddedImage :
    (List.replicate 256 (1 : Byte)).length ≤ 256 ∧ 256 < (List.replicate 257 (1 : Byte)).length := by
  rw [List.length_replicate, List.length_replicate]
  decide
theorem witness_ZeroImageHaltsAtOnce : ∃ s, State.boot (List.replicate 2 0) [7] = some s := ⟨_, rfl⟩
theorem witness_PlacedWordRunsNext : State.reset.mem.wf = true ∧ 0 < 65536 ∧ 65535 < 65536 := by decide
theorem witness_ZeroOpcodeHaltsStep :
    ((placed 0 0 1).status = .running ∧ 0 ≤ (placed 0 0 1).pc ∧ (placed 0 0 1).pc ≤ 255 ∧
      (placed 0 0 1).mem.read (placed 0 0 1).pc.toNat = 0) ∧
    ((atTop 255 0).status = .running ∧ 0 ≤ (atTop 255 0).pc ∧ (atTop 255 0).pc ≤ 255 ∧
      (atTop 255 0).mem.read (atTop 255 0).pc.toNat = 0) := by decide
theorem witness_MissingParameterOnlyAtTop :
    ((atTop 255 1).status = .running ∧ (atTop 255 1).pc = 255 ∧ (atTop 255 1).mem.read 255 ≠ 0) ∧
    ((placed 254 1 0).status = .running ∧ 0 ≤ (placed 254 1 0).pc ∧ (placed 254 1 0).pc ≤ 254 ∧
      (placed 254 1 0).mem.read (placed 254 1 0).pc.toNat ≠ 0) := by decide
theorem witness_OutOfBoundsPointerExhausts :
    ((atTop (-1) 0).status = .running ∧ (atTop (-1) 0).pc < 0) ∧
    ((atTop 256 0).status = .running ∧ 255 < (atTop 256 0).pc) := by decide
theorem witness_StepRunsDecodedInstruction :
    ((placed 254 1 3).status = .running ∧ 0 ≤ (placed 254 1 3).pc ∧ (placed 254 1 3).pc ≤ 254 ∧
      ∃ i rest, decode [(placed 254 1 3).mem.read 254, (placed 254 1 3).mem.read 255] = .ok (i, rest)) ∧
    ((atTop 255 0).pc = 255 ∧ ∃ i rest, decode [(atTop 255 0).mem.read 255] = .ok (i, rest)) :=
  ⟨⟨rfl, by decide, by decide, .inc 3 0, [], by rfl⟩, rfl, .und0, [], rfl⟩
theorem witness_StepIsThePseudocode : State.reset.status = .running := rfl
/-- The causes of a step, one state each: PointerAfterStep, TerminationsHaveTheirCauses, FlagAfterEveryInstruction and
InvariantKeptByEveryStep speak of such steps. -/
theorem witness_steps :
    (∃ t, step (atTop 256 0) = .next t) ∧ (∃ t, step (atTop 255 0) = .next t) ∧ (∃ t, step (atTop 255 1) = .next t) ∧
    (∃ t, step (placed 254 0x0B 0) = .next t) ∧ (∃ t, step (placed 0 0x07 0) = .next t) :=
  ⟨next_of_isSome (by decide), next_of_isSome (by decide), next_of_isSome (by decide), next_of_isSome (by decide),
    next_of_isSome (by decide)⟩
theorem witness_PointerAfterStep :
    (255 < (atTop 256 0).pc ∧ (atTop (-1) 0).pc < 0) ∧
    (0 ≤ (atTop 255 0).pc ∧ (atTop 255 0).pc ≤ 255 ∧ (atTop 255 0).mem.read (atTop 255 0).pc.toNat = 0) ∧
    ((atTop 255 1).pc = 255 ∧ (atTop 255 1).mem.read 255 ≠ 0) ∧
    ((placed 254 0x0B 0).pc ≤ 254 ∧ (placed 254 0x0B 0).mem.read (placed 254 0x0B 0).pc.toNat ≠ 0) := by decide
theorem witness_TerminalStateHasNoStep : (State.reset.halt .halted).status ≠ .running := by decide
theorem witness_OnlyInFaultsAndNothingWaits :
    (reading (placed 254 0x10 0x10) 0 [7]).status = .running ∧
    (reading (placed 254 0x10 0x10) 0 [7]).mem.read 254 = 0x10 := by decide
theorem witness_RegisterReadsAndWrites :
    (∃ t, exec (.inc 3 0) State.reset = .next t) ∧ writtenRegister (.inc 3 0) State.reset ≠ some 15 ∧
    (15 : RegIdx) ∉ readRegisters (.add 3 4) ∧ flagRegister (.inc 3 0) = some 3 :=
  ⟨⟨_, rfl⟩, by decide, by decide, rfl⟩
theorem witness_FlagAfterEveryInstruction :
    (∃ t, exec (.ret 0) State.reset = .next t) ∧ Instr.ret 0 ≠ .und0 ∧
    ∃ t, step (atTop 255 0) = .next t ∧ t.status = .undefinedOpcode := by
  refine ⟨⟨_, rfl⟩, by decide, ?_⟩
  obtain ⟨t, ht⟩ := witness_steps.2.1
  have seen : after (atTop 255 0) (fun t => t.status) = some .undefinedOpcode := by decide
  refine ⟨t, ht, ?_⟩
  rw [after, ht] at seen
  simpa [nextOf] using seen
theorem witness_FlagReadOnlyByJzAndJnz : (∀ d, Instr.inp 16 ≠ .jz d) ∧ (∀ d, Instr.inp 16 ≠ .jnz d) :=
  ⟨nofun, nofun⟩
theorem witness_FlagLivesForOneInstruction :
    (∃ t, exec (.out 0 0) State.reset = .next t) ∧ flagRegister (.out 0 0) = none ∧ Instr.out 0 0 ≠ .und0 :=
  ⟨⟨_, rfl⟩, rfl, by decide⟩
theorem witness_LatchWrittenByInReadByJfe :
    (∃ t, exec (.inp 16) State.reset = .next t ∧ t.inx ≠ State.reset.inx) ∧
    (∀ d, Instr.inp 16 ≠ .jfe d) := ⟨⟨_, exec_inp_empty 16 (by decide), by decide⟩, nofun⟩
theorem witness_OutputGrowsOnlyByOut : ∃ t, exec (.out 15 0) State.reset = .next t := ⟨_, rfl⟩
/-- ImageAndInputAreFixed, StreamsAlongARun and PointerRangeOfEveryRun: a run of one step that takes a byte. -/
theorem witness_run : ∃ s t trace, State.boot [0x10, 0x0F] [7] = some s ∧ Runs s trace t ∧ trace.length = 1 ∧
    t.ic = 1 := by
  have hs : State.boot [0x10, 0x0F] [7] = some (reading (placed 0 0x10 0x0F) 0 [7]) := by decide
  obtain ⟨t, ht⟩ := next_of_isSome (o := step (reading (placed 0 0x10 0x0F) 0 [7])) (by decide)
  have seen : after (reading (placed 0 0x10 0x0F) 0 [7]) (fun t => t.ic) = some 1 := by decide
  refine ⟨_, t, _, hs, .more (.start _) ht, rfl, ?_⟩
  rw [after, ht] at seen
  simpa [nextOf] using seen
theorem witness_ExhaustionIsPermanent :
    State.Inv (State.setInx (reading State.reset 1 [7])) ∧ (State.setInx (reading State.reset 1 [7])).inx = true := by
  decide
theorem witness_IgnoredBitsHaveNoEffect :
    Instr.clearIgnored (.inc 3 0xA) = Instr.clearIgnored (.inc 3 0) ∧ Instr.inc 3 0xA ≠ .inc 3 0 := by decide
theorem witness_InvariantKeptByEveryStep :
    (atTop 255 1).Inv ∧ (placed 254 0x07 0x7F).Inv ∧ ∃ t, step (placed 254 0x07 0x7F) = .next t :=
  ⟨by decide, by decide, next_of_isSome (by decide)⟩
theorem witness_InvariantHoldsAtReset : (atTop 255 1).mem.wf = true := by decide
theorem witness_FetchAddressesAreInBounds :
    (ports (placed 254 1 3)).imemAddrs = [254, 255] ∧ (ports (placed 254 0 3)).imemAddrs = [254] := by decide
theorem witness_PortsCarryTheStreams :
    (ports (reading (placed 0 0x10 0x0F) 0 [7])).inTake = true ∧
    (∃ t, step (reading (placed 0 0x10 0x0F) 0 [7]) = .next t) ∧
    (ports ((placed 0 0x11 0x0F).setReg 15 9)).outByte = some 9 :=
  ⟨by decide, next_of_isSome (by decide), by decide⟩
theorem witness_DecodeOfEncode : (Instr.nopr40 0x7F 0xFF).wellFormed = true := by decide
theorem witness_EncodeOfDecode : decode [0x00, 0x55] = .ok (.und0, [0x55]) ∧
    decode [0x7F, 0xFF, 0x01] = .ok (.nopr40 0x7F 0xFF, [0x01]) := ⟨rfl, rfl⟩
theorem witness_DisplacementByteRoundTrip : (-128 : Int) ≤ -128 ∧ (127 : Int) ≤ 127 := by decide
theorem witness_JumpTargetByThreeOperations : (0 : Int) ≤ 0 ∧ (254 : Int) ≤ 254 := by decide
theorem witness_JumpTargetsAreUnchecked :
    (placed 254 0x07 0x01).status = .running ∧ jumpTarget (placed 254 0x07 0x01).pc 0x01 = 255 ∧
    jumpTarget (placed 254 0x07 0x02).pc 0x02 = 256 ∧ jumpTarget (placed 0 0x07 0xFF).pc 0xFF = -1 := by decide

end Sys2Proof.Tests
end

section
/-! PROOFS. The displacement byte (spec/00_scope.md R9). -/

namespace Sys2Proof.Proofs.Scope
open Sys2Proof.Machine

/-- Settles O56: the signed reading and the range are laws of `sdisp`, and its two cases are how the model defines it. -/
theorem displacementIsSignedByte : Obligations.DisplacementIsSignedByte := by
  intro p
  obtain ⟨lower, upper⟩ := sdisp_range p
  exact ⟨sdisp_toInt p, lower, upper, rfl⟩

end Sys2Proof.Proofs.Scope
end

section
/-! PROOFS. The state of the machine (spec/10_state.md): reset, the pointer, the registers, the flag, the latch, the
output and the invariant. -/

namespace Sys2Proof.Proofs.StateRules
open Sys2Proof.Machine

/-! ## Reset -/

@[simp] theorem getReg_reset (r : RegIdx) : State.reset.getReg r = 0 := by
  simp [State.getReg, State.reset]

/-- The invariant at the reset values, whatever input and canonical memory the host supplies. -/
theorem inv_reset_with {m : Memory} (input : List Byte) (wf : m.wf = true) :
    ({ State.reset with mem := m, input := input } : State).Inv :=
  ⟨wf, Nat.zero_le _, nofun, by simp [State.reset], by simp [State.reset], nofun⟩

theorem inv_of_boot {image input : List Byte} {s : State} (h : State.boot image input = some s) : s.Inv := by
  obtain ⟨fits, rfl⟩ := boot_some.mp h
  exact inv_reset_with input (Memory.ofImage_wf fits)

/-- Settles O22: reset keeps the image and the input and is `State.reset` everywhere else. -/
theorem resetClearsEveryElement : Obligations.ResetClearsEveryElement :=
  fun _ => ⟨getReg_reset, rfl, rfl, rfl, rfl, rfl, rfl, rfl, fun _ => rfl⟩

/-- Settles O47: both states are the reset values with a canonical memory and an input. -/
theorem invariantHoldsAtReset : Obligations.InvariantHoldsAtReset :=
  ⟨inv_reset_with [] rfl, fun s wf => inv_reset_with s.input wf⟩

/-! ## What a step does, by where the pointer stands -/

/-- The parameter byte tells every decoded pair from the zero opcode. -/
theorem decodePair_ne_und0 {op : Byte} (p : Byte) (h : op ≠ 0) : decodePair op p ≠ .und0 := by
  intro e
  have param := (decodePair_bytes p h).2
  rw [e] at param
  cases param

/-- `step_next_cases` with the fetch resolved (40_step_cycle.md R91 to R96). -/
theorem step_next_by_address {s t : State} (h : step s = .next t) :
    (¬ inBounds s.pc ∧ t = s.halt .instructionsExhausted) ∨
    (inBounds s.pc ∧ s.mem.read s.pc.toNat = 0 ∧ t = s.halt .undefinedOpcode) ∨
    (s.pc = 255 ∧ s.mem.read 255 ≠ 0 ∧ t = s.halt .missingParameter) ∨
    (0 ≤ s.pc ∧ s.pc ≤ 254 ∧ s.mem.read s.pc.toNat ≠ 0 ∧
      exec (decodePair (s.mem.read s.pc.toNat) (s.mem.read (s.pc.toNat + 1))) s = .next t) := by
  obtain ⟨running, -⟩ := step_next_cases h
  rw [step_running running] at h
  rcases fetch_cases s with ⟨out, hf⟩ | ⟨bounds, zero, hf⟩ | ⟨top, nonzero, hf⟩ | ⟨lo, hi, nonzero, hf⟩ <;> rw [hf] at h
  · cases h; exact .inl ⟨out, rfl⟩
  · cases h; exact .inr (.inl ⟨bounds, zero, rfl⟩)
  · cases h; exact .inr (.inr (.inl ⟨top, nonzero, rfl⟩))
  · exact .inr (.inr (.inr ⟨lo, hi, nonzero, h⟩))

/-! ## The pointer -/

/-- The pointer a completed instruction leaves: the target of a jump whose condition holds, else past the instruction
(10_state.md R32). -/
def pcAfter (i : Instr) (s : State) : Int :=
  match jumpCondition i s with
  | some (true, d) => jumpTarget s.pc d
  | _ => s.pc + 2

theorem pcAfter_jump {i : Instr} {s : State} {taken : Bool} {d : Byte} (h : jumpCondition i s = some (taken, d)) :
    pcAfter i s = if taken = true then jumpTarget s.pc d else s.pc + 2 := by
  cases taken <;> simp [pcAfter, h]

theorem pcAfter_of_no_jump {i : Instr} {s : State} (h : jumpCondition i s = none) : pcAfter i s = s.pc + 2 := by
  simp [pcAfter, h]

/-- No flag-setting instruction is a jump. -/
theorem jumpCondition_of_flagRegister {i : Instr} {rd : RegIdx} (s : State) (h : flagRegister i = some rd) :
    jumpCondition i s = none := by
  cases i
  case jmp | jz | jnz | jfe => cases h
  all_goals rfl

theorem exec_pc {i : Instr} {s t : State} (h : exec i s = .next t) (ne : i ≠ .und0) : t.pc = pcAfter i s := by
  rcases exec_next_cases h with ⟨rfl, -⟩ | ⟨rd, v, hf, rfl⟩ | ⟨c, d, hc, -, rfl⟩ | ⟨u, rfl, rfl⟩ |
    ⟨n, b, rd, rfl, -, -, rfl⟩ | ⟨n, rfl, -, rfl⟩ | ⟨rx, u, rfl, rfl⟩ | ⟨-, hc, -, -, -, -, rfl⟩
  · exact absurd rfl ne
  · exact (pcAfter_of_no_jump (jumpCondition_of_flagRegister s hf)).symm
  · rw [branch_pc, pcAfter_jump hc]
  · rfl
  · rfl
  · rfl
  · rfl
  · exact (pcAfter_of_no_jump hc).symm

/-- `PCRANGE` of 00_scope.md R5: the greatest displacements from the ends of the addresses an instruction stands at. -/
theorem pcAfter_range (i : Instr) {s : State} (lo : 0 ≤ s.pc) (hi : s.pc ≤ 254) :
    -128 ≤ pcAfter i s ∧ pcAfter i s ≤ 381 := by
  unfold pcAfter
  split
  · next d _ =>
    obtain ⟨lower, upper⟩ := sdisp_range d
    unfold jumpTarget
    omega
  · omega

theorem jumpCondition_decodeReserved (op p : Byte) (s : State) : jumpCondition (decodeReserved op p) s = none := by
  unfold decodeReserved
  repeat' split
  all_goals rfl

/-- The opcode byte alone says whether an instruction is a jump and what it tests (30_encoding.md R75). -/
theorem jumpCondition_decodePair (op p : Byte) (s : State) :
    jumpCondition (decodePair op p) s =
      if op = 0x07 then some (true, p) else if op = 0x08 then some (s.flag, p)
      else if op = 0x09 then some (!s.flag, p) else if op = 0x0A then some (s.inx, p) else none := by
  simp only [← BitVec.toNat_inj]
  unfold decodePair
  split
  case h_19 => simp_all [jumpCondition_decodeReserved]
  all_goals
    rename_i opcode
    simp [jumpCondition, opcode]

/-- 10_state.md R32 for a decoded pair, in the bytes of program memory. -/
theorem pcAfter_decodePair (op p : Byte) (s : State) :
    pcAfter (decodePair op p) s =
      if op = 0x07 ∨ (op = 0x08 ∧ s.flag = true) ∨ (op = 0x09 ∧ s.flag = false) ∨ (op = 0x0A ∧ s.inx = true) then
        s.pc + p.toInt
      else s.pc + 2 := by
  rw [← sdisp_toInt]
  have condition := jumpCondition_decodePair op p s
  split_ifs at condition with h7 h8 h9 hA
  · rw [pcAfter_jump condition, jumpTarget]
    simp [h7]
  · rw [pcAfter_jump condition, jumpTarget]
    simp [h8]
  · rw [pcAfter_jump condition, jumpTarget]
    simp [h9]
  · rw [pcAfter_jump condition, jumpTarget]
    simp [hA]
  · simp only [pcAfter_of_no_jump condition, h7, h8, h9, hA, false_and, or_self, if_false]

/-- Settles O32: the halts keep the pointer, and a decoded pair leaves it at `pcAfter`. -/
theorem pointerAfterStep : Obligations.PointerAfterStep := by
  intro s t _ h
  rcases step_next_by_address h with ⟨out, rfl⟩ | ⟨bounds, zero, rfl⟩ | ⟨top, nonzero, rfl⟩ | ⟨lo, hi, nonzero, hx⟩
  · exact ⟨fun _ => rfl, fun _ _ _ => rfl, fun top _ => top, fun lo hi => absurd ⟨lo, by omega⟩ out⟩
  · exact ⟨fun _ => rfl, fun _ _ _ => rfl, fun top _ => top, fun _ _ nonzero => absurd zero nonzero⟩
  · exact ⟨fun _ => rfl, fun _ _ _ => rfl, fun top _ => top, fun _ hi => by omega⟩
  · refine ⟨by omega, fun _ _ zero => absurd zero nonzero, by omega, fun _ _ _ => ?_⟩
    rw [exec_pc hx (decodePair_ne_und0 _ nonzero), pcAfter_decodePair]

/-! ## The flag-setting instructions -/

/-- The value a flag-setting instruction writes (spec/41_inc_dec_mov_shift.md, 44_add_sub_logic.md); of no use for the
others. -/
def resultOf (i : Instr) (s : State) : Byte :=
  match i with
  | .inc rx _ => add8 (s.getReg rx) 1
  | .dec rx _ => sub8 (s.getReg rx) 1
  | .mov _ ry => s.getReg ry
  | .movc k => k
  | .lsl rx _ => shl1 (s.getReg rx)
  | .lsr rx _ => shr1 (s.getReg rx)
  | .add rx ry => add8 (s.getReg rx) (s.getReg ry)
  | .sub rx ry => sub8 (s.getReg rx) (s.getReg ry)
  | .xor rx ry => xor8 (s.getReg rx) (s.getReg ry)
  | .or rx ry => or8 (s.getReg rx) (s.getReg ry)
  | _ => 0

/-- All ten flag-setting instructions are one operation (40_step_cycle.md R98). -/
theorem exec_of_flagRegister {i : Instr} {rd : RegIdx} (s : State) (h : flagRegister i = some rd) :
    exec i s = .next (s.writeResult rd (resultOf i s)) := by
  cases i
  case inc | dec | mov | movc | lsl | lsr | add | sub | xor | or => cases h; rfl
  all_goals cases h

/-- The result depends on the registers of the "reads" column only (10_state.md R22). -/
theorem resultOf_setReg {i : Instr} {r : RegIdx} (s : State) (v : Byte) (unread : r ∉ readRegisters i) :
    resultOf i (s.setReg r v) = resultOf i s := by
  have keeps : ∀ q ∈ readRegisters i, (s.setReg r v).getReg q = s.getReg q :=
    fun q hq => getReg_setReg_other s v (fun e => unread (e ▸ hq))
  cases i <;> simp_all [resultOf, readRegisters]

/-- A register set before the result is written survives unless the result overwrites it. -/
theorem setReg_writeResult (s : State) (r rd : RegIdx) (v w : Byte) :
    (s.setReg r v).writeResult rd w = if rd = r then s.writeResult rd w else (s.writeResult rd w).setReg r v := by
  have advanced : (s.setReg r v).advance = s.advance.setReg r v := rfl
  split
  · next same => rw [State.writeResult, advanced, same, setReg_setReg, State.writeResult]
  · next differ =>
    rw [State.writeResult, advanced, setReg_comm _ _ _ (Ne.symm differ), State.flagFrom,
      getReg_setReg_other _ _ differ]
    rfl

theorem setReg_branch (s : State) (r : RegIdx) (v : Byte) (taken : Bool) (d : Byte) :
    (s.setReg r v).branch taken d = (s.branch taken d).setReg r v := by
  cases taken <;> rfl

/-! ## IN -/

/-- Everything a completed IN can have done (45_in_out.md R171). -/
theorem exec_inp_next_cases {n : Byte} {s t : State} (h : exec (.inp n) s = .next t) :
    (∃ b rd, s.inData = some b ∧ inRegister n = some rd ∧ t = (s.advance.setReg rd b).takeInput.clearFlag) ∨
    (s.inData = none ∧ t = s.advance.setInx.clearFlag) := by
  cases hb : s.inData with
  | none =>
    rw [exec_inp_empty n hb] at h
    cases h
    exact .inr ⟨rfl, rfl⟩
  | some b =>
    cases hr : inRegister n with
    | none => rw [exec_inp_fault hb hr] at h; cases h
    | some rd =>
      rw [exec_inp_take hb hr] at h
      cases h
      exact .inl ⟨b, rd, rfl, rfl, rfl⟩

/-- What an instruction does to the input side of the state: only IN touches it, and it takes a byte or sets the latch
(10_state.md R28, R37). -/
theorem exec_input_cases {i : Instr} {s t : State} (h : exec i s = .next t) :
    ((∀ n, i ≠ .inp n) ∧ t.ic = s.ic ∧ t.inx = s.inx) ∨
    ((∃ n, i = .inp n) ∧ s.inAvail = true ∧ t.ic = s.ic + 1 ∧ t.inx = s.inx) ∨
    ((∃ n, i = .inp n) ∧ s.inAvail = false ∧ t.ic = s.ic ∧ t.inx = true) := by
  by_cases hi : ∃ n, i = .inp n
  · obtain ⟨n, rfl⟩ := hi
    rcases exec_inp_next_cases h with ⟨b, rd, hb, -, rfl⟩ | ⟨hb, rfl⟩
    · exact .inr (.inl ⟨⟨n, rfl⟩, inData_some hb, rfl, rfl⟩)
    · exact .inr (.inr ⟨⟨n, rfl⟩, inData_none.mp hb, rfl, rfl⟩)
  · refine .inl ⟨not_exists.mp hi, ?_⟩
    rcases exec_next_cases h with ⟨-, rfl⟩ | ⟨rd, v, -, rfl⟩ | ⟨c, d, -, -, rfl⟩ | ⟨u, -, rfl⟩ | ⟨n, b, rd, hn, -, -, -⟩ |
      ⟨n, hn, -, -⟩ | ⟨rx, u, -, rfl⟩ | ⟨-, -, -, -, -, -, rfl⟩
    case inr.inr.inl => rw [branch_eq]; exact ⟨rfl, rfl⟩
    case inr.inr.inr.inr.inl | inr.inr.inr.inr.inr.inl => exact absurd ⟨n, hn⟩ hi
    all_goals exact ⟨rfl, rfl⟩

/-! ## The registers -/

theorem writtenRegister_of_flagRegister {i : Instr} {rd : RegIdx} (s : State) (h : flagRegister i = some rd) :
    writtenRegister i s = some rd := by
  cases i
  case inp => cases h
  all_goals exact h

theorem writtenRegister_inp_take {n b : Byte} {s : State} (hb : s.inData = some b) :
    writtenRegister (.inp n) s = inRegister n := by
  simp [writtenRegister, inData_some hb]

theorem writtenRegister_inp_empty {n : Byte} {s : State} (hb : s.inData = none) :
    writtenRegister (.inp n) s = none := by
  simp [writtenRegister, inData_none.mp hb]

/-- The "writes" column of 10_state.md R22. -/
theorem exec_getReg_of_not_written {i : Instr} {s t : State} {r : RegIdx} (h : exec i s = .next t)
    (unwritten : writtenRegister i s ≠ some r) : t.getReg r = s.getReg r := by
  rcases exec_next_cases h with ⟨-, rfl⟩ | ⟨rd, v, hf, rfl⟩ | ⟨c, d, -, -, rfl⟩ | ⟨u, -, rfl⟩ |
    ⟨n, b, rd, rfl, hb, hr, rfl⟩ | ⟨n, -, -, rfl⟩ | ⟨rx, u, -, rfl⟩ | ⟨-, -, -, -, -, -, rfl⟩
  case inr.inl =>
    have differ : r ≠ rd := fun e => unwritten (by rw [writtenRegister_of_flagRegister s hf, e])
    rw [writeResult_getReg, if_neg differ]
  case inr.inr.inl => exact branch_getReg ..
  case inr.inr.inr.inr.inl =>
    have differ : r ≠ rd := fun e => unwritten (by rw [writtenRegister_inp_take hb, hr, e])
    exact getReg_setReg_other s.advance b differ
  all_goals rfl

theorem exec_inp_setReg (s : State) (n : Byte) (r : RegIdx) (v : Byte) :
    exec (.inp n) (s.setReg r v) =
      mapNext (fun t => if writtenRegister (.inp n) s = some r then t else t.setReg r v) (exec (.inp n) s) := by
  have seen : (s.setReg r v).inData = s.inData := rfl
  cases hb : s.inData with
  | none =>
    rw [exec_inp_empty n hb, exec_inp_empty n (seen.trans hb), writtenRegister_inp_empty hb]
    rfl
  | some b =>
    cases hr : inRegister n with
    | none => rw [exec_inp_fault hb hr, exec_inp_fault (seen.trans hb) hr, mapNext]
    | some rd =>
      have advanced : (s.setReg r v).advance = s.advance.setReg r v := rfl
      rw [exec_inp_take hb hr, exec_inp_take (seen.trans hb) hr, writtenRegister_inp_take hb, hr, mapNext, advanced]
      by_cases same : rd = r
      · rw [if_pos (congrArg some same), same, setReg_setReg]
      · rw [if_neg (fun e => same (Option.some.inj e)), setReg_comm _ _ _ (Ne.symm same)]
        rfl

/-- The flag of the ten flag-setting instructions (40_step_cycle.md R98). -/
theorem exec_flag_of_flagRegister {i : Instr} {s t : State} {r : RegIdx} (h : exec i s = .next t)
    (hf : flagRegister i = some r) : t.flag = true ↔ t.getReg r = 0 := by
  rw [exec_of_flagRegister s hf] at h
  cases h
  simp [writeResult_getReg, zero]

/-- The "reads" column of 10_state.md R22: a register outside it passes through. -/
theorem exec_setReg_of_not_read {i : Instr} {r : RegIdx} (s : State) (v : Byte) (unread : r ∉ readRegisters i) :
    exec i (s.setReg r v) =
      mapNext (fun t => if writtenRegister i s = some r then t else t.setReg r v) (exec i s) := by
  cases hf : flagRegister i with
  | some rd =>
    simp [exec_of_flagRegister _ hf, mapNext, writtenRegister_of_flagRegister s hf, resultOf_setReg s v unread,
      setReg_writeResult]
  | none =>
    cases i
    case inp n => exact exec_inp_setReg s n r v
    case out rx u =>
      have differ : rx ≠ r := fun e => unread (e ▸ List.mem_singleton_self rx)
      simp only [exec, execOut, getReg_setReg_other s v differ]
      rfl
    case jmp | jz | jnz | jfe => exact congrArg Host.Outcome.next (setReg_branch ..)
    case und0 | ret | nopr12 | nopr14 | nopr18 | nopr20 | nopr40 | nopr80 => rfl
    all_goals cases hf

/-- Settles O36, a lemma for each column of the table and one for the flag. -/
theorem registerReadsAndWrites : Obligations.RegisterReadsAndWrites :=
  ⟨fun _ _ _ _ => exec_getReg_of_not_written, fun _ s _ v => exec_setReg_of_not_read s v,
    fun _ _ _ _ => exec_flag_of_flagRegister⟩

/-! ## The flag -/

/-- Every operation that ends with a write of the flag forgets the flag it found. -/
theorem setFlag_branch (s : State) (z taken : Bool) (d : Byte) : (s.setFlag z).branch taken d = s.branch taken d := by
  cases taken <;> rfl

theorem exec_inp_setFlag (s : State) (n : Byte) (z : Bool) : exec (.inp n) (s.setFlag z) = exec (.inp n) s := by
  have seen : (s.setFlag z).inData = s.inData := rfl
  cases hb : s.inData with
  | none => rw [exec_inp_empty n hb, exec_inp_empty n (seen.trans hb)]; rfl
  | some b =>
    cases hr : inRegister n with
    | none => rw [exec_inp_fault hb hr, exec_inp_fault (seen.trans hb) hr]
    | some rd => rw [exec_inp_take hb hr, exec_inp_take (seen.trans hb) hr]; rfl

/-- Settles O38: the zero opcode keeps the flag, and all others but JZ and JNZ overwrite it without a look. -/
theorem flagReadOnlyByJzAndJnz : Obligations.FlagReadOnlyByJzAndJnz := by
  intro i s z notJz notJnz
  cases i
  case und0 => rfl
  case jz d => exact absurd rfl (notJz d)
  case jnz d => exact absurd rfl (notJnz d)
  case inp n => exact exec_inp_setFlag s n z
  case jmp | jfe => exact congrArg Host.Outcome.next (setFlag_branch ..)
  all_goals rfl

/-! ## The latch -/

theorem setLatch_branch (s : State) (z taken : Bool) (d : Byte) :
    { s with inx := z }.branch taken d = { s.branch taken d with inx := z } := by
  cases taken <;> rfl

/-- An instruction that neither reads nor writes the latch passes it on. -/
theorem exec_setLatch {i : Instr} (s : State) (z : Bool) (notJfe : ∀ d, i ≠ .jfe d) (notInp : ∀ n, i ≠ .inp n) :
    exec i { s with inx := z } = mapNext (fun t => { t with inx := z }) (exec i s) := by
  cases i
  case jfe d => exact absurd rfl (notJfe d)
  case inp n => exact absurd rfl (notInp n)
  case jmp | jz | jnz => exact congrArg Host.Outcome.next (setLatch_branch ..)
  all_goals rfl

/-- After IN the latch is the old one, or 1 if no byte was available. -/
theorem exec_inp_inx {s t : State} {n : Byte} (h : exec (.inp n) s = .next t) : t.inx = (s.inx || !s.inAvail) := by
  rcases exec_input_cases h with ⟨notInp, -⟩ | ⟨-, avail, -, inx⟩ | ⟨-, avail, -, inx⟩
  · exact absurd rfl (notInp n)
  · simp [avail, inx]
  · simp [avail, inx]

theorem exec_inx_changed {i : Instr} {s t : State} (h : exec i s = .next t) (changed : t.inx ≠ s.inx) :
    (∃ n, i = .inp n) ∧ s.inAvail = false ∧ t.inx = true := by
  rcases exec_input_cases h with ⟨-, -, inx⟩ | ⟨-, -, -, inx⟩ | ⟨isInp, avail, -, inx⟩
  · exact absurd inx changed
  · exact absurd inx changed
  · exact ⟨isInp, avail, inx⟩

/-- Whatever the latch, an instruction other than JFE does the same, but for the latch itself. -/
theorem exec_any_latch {i : Instr} {s t : State} (z : Bool) (notJfe : ∀ d, i ≠ .jfe d) (h : exec i s = .next t) :
    ∃ u, exec i { s with inx := z } = .next u ∧ { u with inx := t.inx } = t := by
  by_cases hi : ∃ n, i = .inp n
  · obtain ⟨n, rfl⟩ := hi
    rcases exec_inp_next_cases h with ⟨b, rd, hb, hr, rfl⟩ | ⟨hb, rfl⟩
    · exact ⟨_, exec_inp_take hb hr, rfl⟩
    · exact ⟨_, exec_inp_empty n hb, rfl⟩
  · exact ⟨{ t with inx := z }, by rw [exec_setLatch s z notJfe (not_exists.mp hi), h]; rfl, rfl⟩

/-- Settles O40, a lemma for each clause. -/
theorem latchWrittenByInReadByJfe : Obligations.LatchWrittenByInReadByJfe :=
  ⟨fun _ _ _ => exec_inx_changed, fun _ _ _ => exec_inp_inx, fun _ _ _ z => exec_any_latch z⟩

/-! ## The output -/

theorem exec_out_of_not_out {i : Instr} {s t : State} (notOut : ∀ rx u, i ≠ .out rx u) (h : exec i s = .next t) :
    t.out = s.out := by
  rcases exec_next_cases h with ⟨-, rfl⟩ | ⟨rd, v, -, rfl⟩ | ⟨c, d, -, -, rfl⟩ | ⟨u, -, rfl⟩ | ⟨n, b, rd, -, -, -, rfl⟩ |
    ⟨n, -, -, rfl⟩ | ⟨rx, u, hi, -⟩ | ⟨-, -, -, -, -, -, rfl⟩
  case inr.inr.inl => rw [branch_eq]
  case inr.inr.inr.inr.inr.inr.inl => exact absurd hi (notOut rx u)
  all_goals rfl

/-- Settles O41: OUT appends its register by definition, and nothing else emits. -/
theorem outputGrowsOnlyByOut : Obligations.OutputGrowsOnlyByOut := by
  intro i s t h
  split
  · cases h; rfl
  · next notOut => rw [exec_out_of_not_out notOut h, List.append_nil]

/-! ## The invariant -/

theorem exec_status_ne_faulted {i : Instr} {s t : State} (h : exec i s = .next t)
    (ne : s.status ≠ .faultedInRegIndex) : t.status ≠ .faultedInRegIndex := by
  rcases exec_next_cases h with ⟨-, rfl⟩ | ⟨rd, v, -, rfl⟩ | ⟨c, d, -, -, rfl⟩ | ⟨u, -, rfl⟩ | ⟨n, b, rd, -, -, -, rfl⟩ |
    ⟨n, -, -, rfl⟩ | ⟨rx, u, -, rfl⟩ | ⟨-, -, -, -, -, -, rfl⟩
  case inl | inr.inr.inr.inl => nofun
  case inr.inr.inl => rw [branch_eq]; exact ne
  all_goals exact ne

/-- Every instruction keeps the cursor in the input, and the latch set only with the cursor at its end: the two change
together, as `exec_input_cases` says. -/
theorem exec_input_inv {i : Instr} {s t : State} (h : exec i s = .next t) (inside : s.ic ≤ s.input.length)
    (atEnd : s.inx = true → s.ic = s.input.length) :
    t.ic ≤ s.input.length ∧ (t.inx = true → t.ic = s.input.length) := by
  rcases exec_input_cases h with ⟨-, ic, inx⟩ | ⟨-, avail, ic, inx⟩ | ⟨-, avail, ic, -⟩
  · rw [ic, inx]
    exact ⟨inside, atEnd⟩
  · have room : s.ic < s.input.length := of_decide_eq_true avail
    rw [ic, inx]
    exact ⟨room, fun latched => absurd (atEnd latched) (Nat.ne_of_lt room)⟩
  · have full : ¬ s.ic < s.input.length := of_decide_eq_false avail
    rw [ic]
    exact ⟨inside, fun _ => by omega⟩

/-- A completed instruction keeps the invariant where two bytes are in bounds. -/
theorem exec_inv {i : Instr} {s t : State} (h : exec i s = .next t) (ne : i ≠ .und0) (lo : 0 ≤ s.pc) (hi : s.pc ≤ 254)
    (inv : s.Inv) : t.Inv := by
  obtain ⟨wf, inside, atEnd, -, -, status⟩ := inv
  obtain ⟨mem, input⟩ := exec_mem_input h
  obtain ⟨inside', atEnd'⟩ := exec_input_inv h inside atEnd
  obtain ⟨lower, upper⟩ := pcAfter_range i lo hi
  rw [State.Inv, mem, input, exec_pc h ne]
  exact ⟨wf, inside', atEnd', lower, upper, exec_status_ne_faulted h status⟩

theorem halt_inv {s : State} {reason : Status} (ne : reason ≠ .faultedInRegIndex) (inv : s.Inv) :
    (s.halt reason).Inv := by
  obtain ⟨wf, inside, atEnd, lower, upper, -⟩ := inv
  exact ⟨wf, inside, atEnd, lower, upper, ne⟩

/-- Settles O46: the halts change the status only, and every other step is an instruction with two bytes in bounds. -/
theorem invariantKeptByEveryStep : Obligations.InvariantKeptByEveryStep := by
  intro s t inv h
  rcases step_next_by_address h with ⟨-, rfl⟩ | ⟨-, -, rfl⟩ | ⟨-, -, rfl⟩ | ⟨lo, hi, nonzero, hx⟩
  · exact halt_inv nofun inv
  · exact halt_inv nofun inv
  · exact halt_inv nofun inv
  · exact exec_inv hx (decodePair_ne_und0 _ nonzero) lo hi inv

/-- Settles O48: the invariant holds at boot and every step keeps it. -/
theorem pointerRangeOfEveryRun : Obligations.PointerRangeOfEveryRun := by
  intro image input s t trace boot run
  obtain ⟨-, -, -, lower, upper, -⟩ := run.induct_on (P := State.Inv) (inv_of_boot boot) invariantKeptByEveryStep
  exact ⟨lower, upper⟩

end Sys2Proof.Proofs.StateRules
end

section
/-! PROOFS. Program memory (spec/20_memory.md R50 to R59): what boot loads, that nothing but the fetch reads it and that
nothing writes it. -/

namespace Sys2Proof.Proofs.ProgramMemory
open Sys2Proof.Machine Sys2Proof.Proofs.StateRules

/-! ## Loading -/

/-- Settles O24: boot is the reset values with the image and the input, and the image reads back padded. -/
theorem bootLoadsPaddedImage : Obligations.BootLoadsPaddedImage := by
  intro image input
  refine ⟨fun fits => ?_, fun long => if_neg (Nat.not_le.mpr long)⟩
  have boot := boot_some (input := input).mpr ⟨fits, rfl⟩
  exact ⟨_, boot, inv_of_boot boot, rfl, rfl, rfl, rfl, rfl, getReg_reset, rfl, rfl, Memory.read_ofImage image⟩

/-- A zero byte at the pointer is fetched as the zero opcode, at address 255 as elsewhere (40_step_cycle.md R92). -/
theorem fetch_of_zero_opcode {s : State} (bounds : inBounds s.pc) (zero : s.mem.read s.pc.toNat = 0) :
    s.fetch = .ok .und0 := by
  rcases fetch_cases s with ⟨out, -⟩ | ⟨-, -, hf⟩ | ⟨top, nonzero, -⟩ | ⟨-, -, nonzero, -⟩
  · exact absurd bounds out
  · exact hf
  · rw [top] at zero
    exact absurd zero nonzero
  · exact absurd zero nonzero

theorem step_of_zero_opcode {s : State} (running : s.status = .running) (bounds : inBounds s.pc)
    (zero : s.mem.read s.pc.toNat = 0) : step s = .next (s.halt .undefinedOpcode) := by
  rw [step_running running, fetch_of_zero_opcode bounds zero]
  rfl

/-- Settles O25: at address 0 stands a zero byte of the image or of the padding. -/
theorem zeroImageHaltsAtOnce : Obligations.ZeroImageHaltsAtOnce := by
  intro k input s boot
  obtain ⟨-, rfl⟩ := boot_some.mp boot
  have zero : (Memory.ofImage (List.replicate k 0)).read 0 = 0 := by
    cases k <;> simp [Memory.read_ofImage, List.replicate_succ]
  exact ⟨step_of_zero_opcode rfl (by decide : inBounds 0) zero, rfl⟩

/-! ## Reading -/

theorem setMem_branch (s : State) (m : Memory) (taken : Bool) (d : Byte) :
    { s with mem := m }.branch taken d = { s.branch taken d with mem := m } := by
  cases taken <;> rfl

theorem exec_inp_setMem (s : State) (n : Byte) (m : Memory) :
    exec (.inp n) { s with mem := m } = mapNext (fun t => { t with mem := m }) (exec (.inp n) s) := by
  have seen : { s with mem := m }.inData = s.inData := rfl
  cases hb : s.inData with
  | none => rw [exec_inp_empty n hb, exec_inp_empty n (seen.trans hb)]; rfl
  | some b =>
    cases hr : inRegister n with
    | none => rw [exec_inp_fault hb hr, exec_inp_fault (seen.trans hb) hr, mapNext]
    | some rd => rw [exec_inp_take hb hr, exec_inp_take (seen.trans hb) hr]; rfl

/-- Settles O60: every operation the instructions share passes the memory on. -/
theorem instructionsDoNotReadMemory : Obligations.InstructionsDoNotReadMemory := by
  intro i s m
  cases i
  case inp n => exact exec_inp_setMem s n m
  case jmp | jz | jnz | jfe => exact congrArg Host.Outcome.next (setMem_branch ..)
  all_goals rfl

/-- The bytes the fetch sees are those at the pointer and after it, up to address 255 (20_memory.md R51). -/
theorem fetchWindow_getElem {s : State} {k : Nat} {b : Byte} (h : s.fetchWindow[k]? = some b) :
    k < 2 ∧ inBounds (s.pc + k) ∧ b = s.mem.read (s.pc + k).toNat := by
  unfold State.fetchWindow at h
  split_ifs at h with here room
  · match k, h with
    | 0, h => exact ⟨by omega, by simpa using here, by simpa using h.symm⟩
    | 1, h => exact ⟨by omega, room, by simpa using h.symm⟩
  · match k, h with
    | 0, h => exact ⟨by omega, by simpa using here, by simpa using h.symm⟩
  · cases h

/-- Only a running core fetches, and it presents no more addresses than the fetch can see (40_step_cycle.md R91 to R93). -/
theorem running_of_lt_fetchCount {s : State} {k : Nat} (h : k < s.fetchCount) :
    s.status = .running ∧ k < s.fetchWindow.length := by
  unfold State.fetchCount at h
  split at h
  case h_1 => omega
  case h_2 running window => exact ⟨running, by rw [window]; exact h⟩
  case h_3 op p rest running window =>
    refine ⟨running, ?_⟩
    rw [window, List.length_cons, List.length_cons]
    split at h <;> omega
  case h_4 => omega

/-- A byte holds an address in bounds. -/
theorem toNat_ofInt_of_inBounds {a : Int} (h : inBounds a) : (BitVec.ofInt 8 a).toNat = a.toNat := by
  obtain ⟨lower, upper⟩ := h
  rw [BitVec.toNat_ofInt]
  omega

/-- Settles O50: an address presented is the address of a byte of the fetch window. -/
theorem fetchAddressesAreInBounds : Obligations.FetchAddressesAreInBounds := by
  intro s k a h
  obtain ⟨j, hj, rfl⟩ : ∃ j, (List.range s.fetchCount)[k]? = some j ∧ BitVec.ofInt 8 (s.pc + (j : Int)) = a := by
    simpa [ports] using h
  obtain ⟨counted, rfl⟩ := List.getElem?_eq_some_iff.mp hj
  rw [List.getElem_range]
  rw [List.length_range] at counted
  obtain ⟨running, seen⟩ := running_of_lt_fetchCount counted
  have window := List.getElem?_eq_getElem seen
  obtain ⟨early, bounds, byte⟩ := fetchWindow_getElem window
  have address := toNat_ofInt_of_inBounds bounds
  refine ⟨running, early, ?_, ?_⟩
  · rw [address, Int.toNat_of_nonneg bounds.1]
  · rw [address, ← byte, ← window]
    exact List.getElem?_take_of_lt counted

/-! ## Along a run -/

theorem run_mem_input {s t : State} {trace : List Ports} (run : Runs s trace t) :
    t.mem = s.mem ∧ t.input = s.input := by
  refine run.induct_on (P := fun u => u.mem = s.mem ∧ u.input = s.input) ⟨rfl, rfl⟩ ?_
  intro u v ⟨mem, input⟩ last
  obtain ⟨mem', input'⟩ := step_mem_input last
  exact ⟨mem'.trans mem, input'.trans input⟩

/-- The fetch depends on the pointer and program memory only. -/
theorem fetchWindow_congr {s t : State} (pc : t.pc = s.pc) (mem : t.mem = s.mem) : t.fetchWindow = s.fetchWindow := by
  simp only [State.fetchWindow, pc, mem]

/-- Settles O42: no step of the run changes either. -/
theorem imageAndInputAreFixed : Obligations.ImageAndInputAreFixed := by
  intro s t trace run
  obtain ⟨mem, input⟩ := run_mem_input run
  exact ⟨fun a => by rw [mem], input, fetchWindow_congr rfl mem⟩

end Sys2Proof.Proofs.ProgramMemory
end

section
/-! PROOFS. The two streams (spec/20_memory.md R60 to R63): what a step takes and emits, and what a run does. -/

namespace Sys2Proof.Proofs.Streams
open Sys2Proof.Machine Sys2Proof.Proofs.StateRules Sys2Proof.Proofs.ProgramMemory

/-! ## One step -/

theorem current_none_of_fetch_error {s : State} {reason : Status} (h : s.fetch = .error reason) : s.current = none := by
  simp [State.current, h]

/-- The byte the ports show is the one the step takes, and the cursor counts it (10_state.md R37). -/
theorem step_takes_cases {s t : State} (h : step s = .next t) :
    (∃ b, s.takesInput = true ∧ s.inData = some b ∧ t.ic = s.ic + 1) ∨ (s.takesInput = false ∧ t.ic = s.ic) := by
  obtain ⟨running, ⟨reason, hf, rfl⟩ | ⟨i, hf, hx⟩⟩ := step_next_cases h
  · exact .inr ⟨by simp [State.takesInput, current_none_of_fetch_error hf], rfl⟩
  · have current := current_some.mpr ⟨running, hf⟩
    by_cases isInp : ∃ n, i = .inp n
    · obtain ⟨n, rfl⟩ := isInp
      rcases exec_inp_next_cases hx with ⟨b, rd, hb, hr, rfl⟩ | ⟨hb, rfl⟩
      · exact .inl ⟨b, takesInput_true.mpr ⟨n, b, rd, current, hb, hr⟩, hb, rfl⟩
      · exact .inr ⟨by simp [State.takesInput, current, inData_none.mp hb], rfl⟩
    · rcases exec_input_cases hx with ⟨notInp, ic, -⟩ | ⟨inp, -⟩ | ⟨inp, -⟩
      · exact .inr ⟨takesInput_false current notInp, ic⟩
      · exact absurd inp isInp
      · exact absurd inp isInp

/-- The ports show exactly what the step appends to the output (20_memory.md R63). -/
theorem step_out {s t : State} (h : step s = .next t) : t.out = s.out ++ s.emitsByte.toList := by
  obtain ⟨running, ⟨reason, hf, rfl⟩ | ⟨i, hf, hx⟩⟩ := step_next_cases h
  · simp [State.emitsByte, current_none_of_fetch_error hf]
  · have current := current_some.mpr ⟨running, hf⟩
    by_cases isOut : ∃ rx u, i = .out rx u
    · obtain ⟨rx, u, rfl⟩ := isOut
      rw [emitsByte_some.mpr ⟨rx, u, current, rfl⟩]
      cases hx
      rfl
    · have notOut : ∀ rx u, i ≠ .out rx u := fun rx u e => isOut ⟨rx, u, e⟩
      rw [exec_out_of_not_out notOut hx, emitsByte_none current notOut, Option.toList_none, List.append_nil]

/-! ## A run -/

theorem inputTaken_append (before after : List Ports) :
    inputTaken (before ++ after) = inputTaken before ++ inputTaken after :=
  List.filterMap_append

theorem outputEmitted_append (before after : List Ports) :
    outputEmitted (before ++ after) = outputEmitted before ++ outputEmitted after :=
  List.filterMap_append

theorem outputEmitted_ports (s : State) : outputEmitted [ports s] = s.emitsByte.toList := by
  cases h : s.emitsByte <;> simp [outputEmitted, ports, h]

theorem step_inputTaken {s t : State} (h : step s = .next t) :
    s.input.take s.ic ++ inputTaken [ports s] = s.input.take t.ic := by
  rcases step_takes_cases h with ⟨b, takes, hb, ic⟩ | ⟨keeps, ic⟩
  · have byte : s.input[s.ic]? = some b := hb
    simp [inputTaken, ports, takes, hb, ic, List.take_add_one, byte]
  · simp [inputTaken, ports, keeps, ic]

/-- The streams along a run from any state: what was taken before it and along it is the front of the input, what was
emitted before it and along it is the output. -/
theorem run_streams {s t : State} {trace : List Ports} (run : Runs s trace t) :
    s.input.take s.ic ++ inputTaken trace = s.input.take t.ic ∧ s.out ++ outputEmitted trace = t.out := by
  induction run with
  | start => simp [inputTaken, outputEmitted]
  | more before last ih =>
    obtain ⟨taken, emitted⟩ := ih
    have same := (run_mem_input before).2
    constructor
    · rw [inputTaken_append, ← List.append_assoc, taken, ← same]
      exact step_inputTaken last
    · rw [outputEmitted_append, ← List.append_assoc, emitted, outputEmitted_ports, step_out last]

/-- Settles O43: a booted run begins with the cursor at 0 and no output, and the invariant keeps the cursor in the
input. -/
theorem streamsAlongARun : Obligations.StreamsAlongARun := by
  intro image input s t trace boot run
  obtain ⟨-, inside, -⟩ := run.induct_on (P := State.Inv) (inv_of_boot boot) invariantKeptByEveryStep
  have same := (run_mem_input run).2
  obtain ⟨taken, emitted⟩ := run_streams run
  obtain ⟨-, rfl⟩ := boot_some.mp boot
  have front : inputTaken trace = input.take t.ic := taken
  rw [same] at inside
  exact ⟨front, by rw [front, List.length_take_of_le inside], emitted⟩

end Sys2Proof.Proofs.Streams
end

section
/-! PROOFS. Encoding (spec/30_encoding.md): decoding and encoding are inverse, the rows of the opcode table partition the
words, a placed word is the next one run, and the ignored bits have no effect. -/

namespace Sys2Proof.Proofs.Encoding
open Sys2Proof.Machine

/-! ## Decoding and encoding -/

theorem decodePair_opcode (op p : Byte) : (decodePair op p).opcode = op := by
  by_cases zero : op = 0
  · subst zero; rfl
  · exact (decodePair_bytes p zero).1

/-- The last range of `decodeReserved` is untested there: the six ranges together leave it nothing else (R78). -/
theorem decodeReserved_wellFormed {op : Byte} (p : Byte) (h : 0x12 ≤ op.toNat) :
    (decodeReserved op p).wellFormed = true := by
  have covered := reserved_covered op h
  unfold decodeReserved
  split_ifs <;> simp_all [Instr.wellFormed]

/-- Whatever two bytes are decoded, the instruction is one of the encoding (R79). -/
theorem decodePair_wellFormed (op p : Byte) : (decodePair op p).wellFormed = true := by
  by_cases reserved : 0x12 ≤ op.toNat
  · rw [decodePair_reserved p reserved]
    exact decodeReserved_wellFormed p reserved
  · unfold decodePair
    split
    case h_19 =>
      simp only [imp_false] at *
      omega
    all_goals rfl

/-- A well-formed instruction is the zero opcode, or its two bytes are a pair that decodes to it (R70, R75). -/
theorem eq_und0_or_decodePair {i : Instr} (wf : i.wellFormed = true) :
    i = .und0 ∨ ∃ p, i.parameter = some p ∧ i.opcode ≠ 0 ∧ decodePair i.opcode p = i := by
  cases i
  case und0 => exact .inl rfl
  case nopr12 op u | nopr14 op u | nopr18 op u | nopr20 op u | nopr40 op u | nopr80 op u =>
    simp only [Instr.wellFormed, inRange_bounds] at wf
    refine .inr ⟨u, rfl, ?_, ?_⟩
    · rintro (rfl : op = 0)
      simp at wf
    · rw [Instr.opcode, decodePair_reserved u (by omega)]
      simp (disch := omega) only [decodeReserved, inRange_bounds, if_pos, if_neg]
  all_goals exact .inr ⟨_, rfl, by simp [Instr.opcode], by simp [Instr.opcode, decodePair]⟩

/-- Settles O52: an encoding is the zero byte alone or an opcode byte other than zero with its parameter byte. -/
theorem decodeOfEncode : Obligations.DecodeOfEncode := by
  intro i rest wf
  rcases eq_und0_or_decodePair wf with rfl | ⟨p, param, nonzero, pair⟩
  · exact decode_zero rest
  · rw [encode, param]
    exact (decode_pair p rest nonzero).trans (by rw [pair])

/-- Everything that decodes (40_step_cycle.md R91 to R93). -/
theorem decode_ok_cases {bytes rest : List Byte} {i : Instr} (h : decode bytes = .ok (i, rest)) :
    (bytes = 0 :: rest ∧ i = .und0) ∨ ∃ op p, op ≠ 0 ∧ bytes = op :: p :: rest ∧ i = decodePair op p := by
  unfold decode at h
  split at h
  case h_1 => cases h
  case h_2 op =>
    split_ifs at h with zero
    cases h
    exact .inl ⟨by rw [zero], rfl⟩
  case h_3 op p tail =>
    split_ifs at h with zero
    · cases h
      exact .inl ⟨by rw [zero], rfl⟩
    · cases h
      exact .inr ⟨op, p, zero, rfl, rfl⟩

/-- Settles O53: the decoded instruction holds the opcode byte and the parameter byte it was decoded from. -/
theorem encodeOfDecode : Obligations.EncodeOfDecode := by
  intro bytes rest i h
  rcases decode_ok_cases h with ⟨rfl, rfl⟩ | ⟨op, p, nonzero, rfl, rfl⟩
  · exact ⟨rfl, rfl⟩
  · obtain ⟨opcode, param⟩ := decodePair_bytes p nonzero
    exact ⟨decodePair_wellFormed op p, by rw [encode, opcode, param]; rfl⟩

/-- Two bytes always decode to their pair; a zero opcode leaves the second byte over (R70, R79). -/
theorem decode_two (op p : Byte) : ∃ rest, decode [op, p] = .ok (decodePair op p, rest) := by
  by_cases zero : op = 0
  · subst zero; exact ⟨[p], rfl⟩
  · exact ⟨[], decode_pair p [] zero⟩

/-! ## The opcode table -/

/-- The statements of Laws/PerInstr, for every instruction. -/
theorem opcodeByte : ∀ i : Instr, Laws.OpcodeByte.Statement i
  | .und0 => Laws.OpcodeByte.und0
  | .inc rx u => Laws.OpcodeByte.inc rx u
  | .dec rx u => Laws.OpcodeByte.dec rx u
  | .mov rx ry => Laws.OpcodeByte.mov rx ry
  | .movc k => Laws.OpcodeByte.movc k
  | .lsl rx u => Laws.OpcodeByte.lsl rx u
  | .lsr rx u => Laws.OpcodeByte.lsr rx u
  | .jmp d => Laws.OpcodeByte.jmp d
  | .jz d => Laws.OpcodeByte.jz d
  | .jnz d => Laws.OpcodeByte.jnz d
  | .jfe d => Laws.OpcodeByte.jfe d
  | .ret u => Laws.OpcodeByte.ret u
  | .add rx ry => Laws.OpcodeByte.add rx ry
  | .sub rx ry => Laws.OpcodeByte.sub rx ry
  | .xor rx ry => Laws.OpcodeByte.xor rx ry
  | .or rx ry => Laws.OpcodeByte.or rx ry
  | .inp n => Laws.OpcodeByte.inp n
  | .out rx u => Laws.OpcodeByte.out rx u
  | .nopr12 op u => Laws.OpcodeByte.nopr12 op u
  | .nopr14 op u => Laws.OpcodeByte.nopr14 op u
  | .nopr18 op u => Laws.OpcodeByte.nopr18 op u
  | .nopr20 op u => Laws.OpcodeByte.nopr20 op u
  | .nopr40 op u => Laws.OpcodeByte.nopr40 op u
  | .nopr80 op u => Laws.OpcodeByte.nopr80 op u

theorem row_decodePair_holds (op p : Byte) : (decodePair op p).row.holds (instrWord op p) = true := by
  have matched := (opcodeByte _ (decodePair_wellFormed op p)).1 p
  rwa [decodePair_opcode] at matched

theorem row_mem_opcodeTable (i : Instr) : i.row ∈ opcodeTable := by
  cases i <;> simp only [Instr.row] <;> decide

/-- Two rows that one word matches ask the same of the bits that both masks take in. -/
theorem matchBits_agree_of_holds {q r : OpcodeRow} {iw : IWord} (hq : q.holds iw = true) (hr : r.holds iw = true) :
    q.matchBits &&& r.maskBits = r.matchBits &&& q.maskBits := by
  simp only [OpcodeRow.holds, beq_iff_eq] at hq hr
  rw [← hq, ← hr, BitVec.and_assoc, BitVec.and_assoc, BitVec.and_comm q.maskBits]

/-- No two rows of the table ask the same of the bits that both masks take in (R84). -/
theorem opcodeTable_disjoint :
    ∀ q ∈ opcodeTable, ∀ r ∈ opcodeTable, q.matchBits &&& r.maskBits = r.matchBits &&& q.maskBits → q = r := by
  decide

/-- Settles O54: the row of the decoded instruction matches, and the rows are disjoint. -/
theorem oneRowMatchesEveryWord : Obligations.OneRowMatchesEveryWord := by
  intro op p
  obtain ⟨rest, decoded⟩ := decode_two op p
  have listed := row_mem_opcodeTable (decodePair op p)
  have matched := row_decodePair_holds op p
  refine ⟨_, rest, decoded, decodePair_wellFormed op p, listed, matched, fun r listed' matched' => ?_⟩
  exact opcodeTable_disjoint r listed' _ listed (matchBits_agree_of_holds matched' matched)

/-! ## A placed word -/

theorem decodeTableWord_eq {w : Nat} (small : w < 65536) :
    decodeTableWord 16 w = some (decodePair (BitVec.ofNat 8 (w / 256)) (BitVec.ofNat 8 w)) := by
  obtain ⟨rest, decoded⟩ := decode_two (BitVec.ofNat 8 (w / 256)) (BitVec.ofNat 8 w)
  simp only [decodeTableWord, Nat.mod_eq_of_lt (show w < 2 ^ 16 from small), decoded]

/-- Two bytes fit at the pointer of a state with a placed word (log 5). -/
theorem withFetchWord_pc_range (s : State) (nbits w : Nat) :
    0 ≤ (s.withFetchWord nbits w).pc ∧ (s.withFetchWord nbits w).pc ≤ 254 := by
  simp only [State.withFetchWord]
  split_ifs with fits
  · exact fits
  · decide

/-- What is written at two neighbouring addresses is read there. -/
theorem read_write_write {m : Memory} {a : Nat} (op p : Byte) (wf : m.wf = true) (room : a < Config.memSize) :
    ((m.write a op).write (a + 1) p).read a = op ∧ ((m.write a op).write (a + 1) p).read (a + 1) = p :=
  ⟨by rw [Memory.read_write_other p (by omega), Memory.read_write_same a op wf],
    Memory.read_write_same (a + 1) p (Memory.write_wf op wf room)⟩

theorem withFetchWord_fetchWindow {s : State} {w : Nat} (wf : s.mem.wf = true) (small : w < 65536) :
    (s.withFetchWord 16 w).fetchWindow = [BitVec.ofNat 8 (w / 256), BitVec.ofNat 8 w] := by
  obtain ⟨lower, upper⟩ := withFetchWord_pc_range s 16 w
  have room : (s.withFetchWord 16 w).pc.toNat < Config.memSize := by
    rw [Config.memSize]
    omega
  obtain ⟨first, second⟩ := read_write_write (BitVec.ofNat 8 (w / 256)) (BitVec.ofNat 8 w) wf room
  have stored : (s.withFetchWord 16 w).mem =
      (s.mem.write (s.withFetchWord 16 w).pc.toNat (BitVec.ofNat 8 (w / 256))).write
        ((s.withFetchWord 16 w).pc.toNat + 1) (BitVec.ofNat 8 w) := by
    simp only [State.withFetchWord, Nat.mod_eq_of_lt (show w < 2 ^ 16 from small)]
  rw [fetchWindow_pair lower upper, stored, first, second]

/-- Settles O26: the fetch window of the state with the placed word is the word's two bytes. -/
theorem placedWordRunsNext : Obligations.PlacedWordRunsNext := by
  intro s w wf small
  refine ⟨_, decodeTableWord_eq small, row_decodePair_holds _ _, ?_⟩
  obtain ⟨rest, decoded⟩ := decode_two (BitVec.ofNat 8 (w / 256)) (BitVec.ofNat 8 w)
  have fetched : (s.withFetchWord 16 w).fetch =
      .ok (decodePair (BitVec.ofNat 8 (w / 256)) (BitVec.ofNat 8 w)) := by
    simp only [State.fetch, withFetchWord_fetchWindow wf small, decoded]
  have running : (s.withFetchWord 16 w).status = .running := rfl
  rw [step_running running, fetched]

/-- Settles O55: the eight words are closed terms, and the decoder evaluates on them. -/
theorem sampleWordsDecode : Obligations.SampleWordsDecode := by
  unfold Obligations.SampleWordsDecode
  decide

/-! ## Operands -/

/-- No meaning looks at the ignored bits (R76). -/
theorem exec_clearIgnored (i : Instr) (s : State) : exec i.clearIgnored s = exec i s := by
  cases i <;> rfl

/-- Settles O45: both instructions do what the one with its ignored bits 0 does. -/
theorem ignoredBitsHaveNoEffect : Obligations.IgnoredBitsHaveNoEffect := by
  intro i j s same
  rw [← exec_clearIgnored i, same, exec_clearIgnored]

theorem dispByte_toNat (d : Int) : ((dispByte d).toNat : Int) = d % 256 := by
  rw [dispByte, BitVec.toNat_ofInt]
  omega

/-- Settles O57: the byte holds the displacement modulo 256, of which `sdisp` takes the value from -128 to 127. -/
theorem displacementByteRoundTrip : Obligations.DisplacementByteRoundTrip := by
  refine ⟨fun d lower upper => ⟨dispByte_toNat d, ?_⟩, fun p => ?_⟩
  · have byte := dispByte_toNat d
    rcases sdisp_cases (dispByte d) with ⟨small, value⟩ | ⟨large, value⟩ <;> omega
  · rw [sdisp_toInt, dispByte, BitVec.ofInt_toInt]

end Sys2Proof.Proofs.Encoding
end

section
/-! PROOFS. The step cycle (spec/40_step_cycle.md R90 to R99): the fetch and its three halts, the flag after every
instruction, and that the step is the pseudocode. -/

namespace Sys2Proof.Proofs.StepCycle
open Sys2Proof.Machine Sys2Proof.Proofs.StateRules Sys2Proof.Proofs.ProgramMemory Sys2Proof.Proofs.Encoding

/-! ## The fetch -/

theorem step_of_fetch_error {s : State} {reason : Status} (running : s.status = .running)
    (h : s.fetch = .error reason) : step s = .next (s.halt reason) := by
  rw [step_running running, h]

/-- What the bytes of the fetch window decode to is what the step runs. -/
theorem step_of_decode {s : State} {i : Instr} {rest : List Byte} (running : s.status = .running)
    (h : decode s.fetchWindow = .ok (i, rest)) : step s = exec i s := by
  have fetched : s.fetch = .ok i := by simp only [State.fetch, h]
  rw [step_running running, fetched]

theorem fetch_out {s : State} (out : ¬ inBounds s.pc) : s.fetch = .error .instructionsExhausted := by
  simp only [State.fetch, fetchWindow_out out, decode]

theorem fetch_top {s : State} (top : s.pc = 255) (nonzero : s.mem.read 255 ≠ 0) :
    s.fetch = .error .missingParameter := by
  simp only [State.fetch, fetchWindow_top top, decode_single nonzero]

/-- In bounds the opcode byte is in the fetch window, whatever stands after it. -/
theorem fetchWindow_in {s : State} (bounds : inBounds s.pc) :
    ∃ rest, s.fetchWindow = s.mem.read s.pc.toNat :: rest :=
  ⟨_, by rw [State.fetchWindow, if_pos bounds]⟩

theorem fetchCount_of_nil {s : State} (running : s.status = .running) (window : s.fetchWindow = []) :
    s.fetchCount = 0 := by
  simp only [State.fetchCount, running, window]

/-- After a zero opcode byte no parameter byte is fetched (40_step_cycle.md R92). -/
theorem fetchCount_of_zero {s : State} {rest : List Byte} (running : s.status = .running)
    (window : s.fetchWindow = 0 :: rest) : s.fetchCount = 1 := by
  cases rest <;> simp [State.fetchCount, running, window]

theorem fetchCount_of_pair {s : State} {op p : Byte} (running : s.status = .running)
    (window : s.fetchWindow = [op, p]) (nonzero : op ≠ 0) : s.fetchCount = 2 := by
  simp only [State.fetchCount, running, window, if_neg nonzero]

/-- An instruction other than the zero opcode leaves the status, or halts as RET does (60_exceptions.md R200). -/
theorem exec_status {i : Instr} {s t : State} (h : exec i s = .next t) (ne : i ≠ .und0) :
    t.status = s.status ∨ t.status = .halted := by
  rcases exec_next_cases h with ⟨hi, -⟩ | ⟨rd, v, -, rfl⟩ | ⟨c, d, -, -, rfl⟩ | ⟨u, -, rfl⟩ | ⟨n, b, rd, -, -, -, rfl⟩ |
    ⟨n, -, -, rfl⟩ | ⟨rx, u, -, rfl⟩ | ⟨-, -, -, -, -, -, rfl⟩
  case inl => exact absurd hi ne
  case inr.inr.inl => rw [branch_eq]; exact .inl rfl
  case inr.inr.inr.inl => exact .inr rfl
  all_goals exact .inl rfl

/-- Settles O27: the zero byte is fetched alone, at address 255 as elsewhere. -/
theorem zeroOpcodeHaltsStep : Obligations.ZeroOpcodeHaltsStep := by
  intro s running lo hi zero
  refine ⟨step_of_zero_opcode running ⟨lo, hi⟩ zero, ?_⟩
  obtain ⟨rest, window⟩ := fetchWindow_in ⟨lo, hi⟩
  rw [zero] at window
  simp only [ports, fetchCount_of_zero running window, window, List.take_succ_cons, List.take_zero]

/-- Settles O28: the fetch halts only at 255, and no instruction that two bytes decode to leaves that status. -/
theorem missingParameterOnlyAtTop : Obligations.MissingParameterOnlyAtTop := by
  intro s running
  refine ⟨fun top nonzero => step_of_fetch_error running (fetch_top top nonzero), fun lo hi nonzero => ⟨?_, ?_⟩⟩
  · have window := fetchWindow_pair lo hi
    simp only [ports, fetchCount_of_pair running window nonzero, window]
    rfl
  · intro t h
    have decoded := decode_pair (s.mem.read (s.pc.toNat + 1)) [] nonzero
    rw [← fetchWindow_pair lo hi] at decoded
    rw [step_of_decode running decoded] at h
    rcases exec_status h (decodePair_ne_und0 _ nonzero) with status | status <;> simp [status, running]

/-- Settles O29: out of bounds the fetch window is empty. -/
theorem outOfBoundsPointerExhausts : Obligations.OutOfBoundsPointerExhausts := by
  intro s running outside
  have out : ¬ inBounds s.pc := by
    unfold inBounds
    omega
  refine ⟨step_of_fetch_error running (fetch_out out), ?_⟩
  simp only [ports, fetchCount_of_nil running (fetchWindow_out out), List.range_zero, List.map_nil]

/-- Settles O30: the bytes given are the fetch window at that address. -/
theorem stepRunsDecodedInstruction : Obligations.StepRunsDecodedInstruction := by
  intro s running
  refine ⟨fun lo hi i rest decoded => ?_, fun top i rest decoded => ?_⟩
  · rw [← fetchWindow_pair lo hi] at decoded
    exact step_of_decode running decoded
  · rw [← fetchWindow_top top] at decoded
    exact step_of_decode running decoded

/-! ## The flag -/

/-- Outside the ten flag-setting instructions the flag is cleared (40_step_cycle.md R98). -/
theorem exec_flag_of_no_flagRegister {i : Instr} {s t : State} (h : exec i s = .next t) (ne : i ≠ .und0)
    (hf : flagRegister i = none) : t.flag = false := by
  rcases exec_next_cases h with ⟨hi, -⟩ | ⟨rd, v, hrd, -⟩ | ⟨c, d, -, -, rfl⟩ | ⟨u, -, rfl⟩ | ⟨n, b, rd, -, -, -, rfl⟩ |
    ⟨n, -, -, rfl⟩ | ⟨rx, u, -, rfl⟩ | ⟨-, -, -, -, -, -, rfl⟩
  case inl => exact absurd hi ne
  case inr.inl => rw [hf] at hrd; cases hrd
  case inr.inr.inl => rw [branch_eq]
  all_goals rfl

/-- Settles O37: a lemma for each kind of instruction, and a step that leaves one of the three statuses ran none but the
zero opcode. -/
theorem flagAfterEveryInstruction : Obligations.FlagAfterEveryInstruction := by
  refine ⟨fun i s t h ne => ?_, fun s t h halted => ?_⟩
  · split
    · next r hf => rw [Bool.eq_iff_iff, decide_eq_true_iff]; exact exec_flag_of_flagRegister h hf
    · next hf => exact exec_flag_of_no_flagRegister h ne hf
  · obtain ⟨running, -⟩ := step_next_cases h
    rcases step_next_by_address h with ⟨-, rfl⟩ | ⟨-, -, rfl⟩ | ⟨-, -, rfl⟩ | ⟨-, -, nonzero, hx⟩
    · rfl
    · rfl
    · rfl
    · rcases exec_status hx (decodePair_ne_und0 _ nonzero) with status | status <;> simp [status, running] at halted

/-! ## The pseudocode: its numbers are the machine's words -/

theorem regNat_toNat (s : State) (i : RegIdx) : s.regNat i.toNat = (s.getReg i).toNat := by
  simp [State.regNat, State.getReg, i.isLt]

theorem putNat_toNat (s : State) (i : RegIdx) (v : Byte) : s.putNat i.toNat v.toNat = s.setReg i v := by
  have inside : s.regs.setIfInBounds i.toNat v = s.regs.set i.toNat v i.isLt := by
    ext k
    rw [Vector.getElem_setIfInBounds, Vector.getElem_set]
  rw [State.putNat, BitVec.ofNat_toNat, BitVec.setWidth_eq, inside, State.setReg]

theorem zeroOf_toNat (s : State) (i : RegIdx) : s.zeroOf i.toNat = s.flagFrom i := by
  have same : decide (s.regNat i.toNat = 0) = zero (s.getReg i) := by
    rw [Bool.eq_iff_iff, decide_eq_true_iff, zero_eq_true, regNat_toNat]
  rw [State.zeroOf, same]
  rfl

/-- The ten flag-setting arms of R99 are the one operation of the machine. -/
theorem zeroOf_putNat (s : State) (i : RegIdx) (v : Byte) :
    (s.advance.putNat i.toNat v.toNat).zeroOf i.toNat = s.writeResult i v := by
  rw [putNat_toNat, zeroOf_toNat, State.writeResult]

theorem add8_toNat (a b : Byte) : (add8 a b).toNat = (a.toNat + b.toNat) % 256 := BitVec.toNat_add a b

theorem sub8_toNat (a b : Byte) : (sub8 a b).toNat = (a.toNat + 256 - b.toNat) % 256 := by
  have bound := b.isLt
  rw [sub8, BitVec.toNat_sub]
  omega

theorem shl1_toNat (a : Byte) : (shl1 a).toNat = (2 * a.toNat) % 256 := by
  simp [shl1, Nat.shiftLeft_eq, Nat.mul_comm]

theorem shr1_toNat (a : Byte) : (shr1 a).toNat = a.toNat / 2 := by
  simp [shr1, Nat.shiftRight_eq_div_pow]

/-- The four jump arms of R99 are the one operation of the machine. -/
theorem zeroNot_jump (s : State) (taken : Bool) (d : Byte) :
    (if taken = true then { s.advance with pc := s.pc + sdispNat d.toNat } else s.advance).zeroNot =
      s.branch taken d := by
  cases taken <;> rfl

/-! ## The pseudocode: its case is the dispatch -/

/-- The last arm of R99 (46_reserved_opcodes.md R186). -/
theorem pseudoCase_reserved {op : Nat} (a : Int) (p : Nat) (s : State) (h : 0x12 ≤ op) :
    pseudoCase a op p s = .next s.zeroNot := by
  unfold pseudoCase
  split
  case h_18 => rfl
  all_goals omega

theorem join_toNat_mod (ry rx : Nibble) : (joinNibbles ry rx).toNat % 16 = rx.toNat := by
  rw [← loNibble_toNat, loNibble_join]

theorem join_toNat_div (ry rx : Nibble) : (joinNibbles ry rx).toNat / 16 = ry.toNat := by
  rw [← hiNibble_toNat, hiNibble_join]

/-- The arm of IN (45_in_out.md R171, R172). -/
theorem pseudoCase_inp (n : Byte) (s : State) :
    pseudoCase s.pc 0x10 n.toNat s.advance = exec (.inp n) s := by
  by_cases available : s.ic < s.input.length
  · have byte : s.inData = some s.input[s.ic] := List.getElem?_eq_getElem available
    by_cases register : n.toNat ≤ 15
    · have index : (n.setWidth 4).toNat = n.toNat := by
        rw [BitVec.toNat_setWidth]
        omega
      rw [exec_inp_take byte (inRegister_some.mpr ⟨register, rfl⟩), ← putNat_toNat, index]
      simp only [pseudoCase, advance_ic, advance_input, dif_pos available, if_neg (Nat.not_lt.mpr register)]
      rfl
    · rw [exec_inp_fault byte (inRegister_none.mpr (Nat.lt_of_not_le register))]
      simp only [pseudoCase, advance_ic, advance_input, dif_pos available, if_pos (Nat.lt_of_not_le register),
        BitVec.ofNat_toNat, BitVec.setWidth_eq]
  · have empty : s.inData = none := List.getElem?_eq_none (Nat.le_of_not_lt available)
    rw [exec_inp_empty n empty]
    exact dif_neg available

/-- The case of R99 on the two bytes of an instruction is its meaning. -/
theorem pseudoCase_instr {i : Instr} {p : Byte} (s : State) (wf : i.wellFormed = true) (param : i.parameter = some p) :
    pseudoCase s.pc i.opcode.toNat p.toNat s.advance = exec i s := by
  cases i
  case nopr12 | nopr14 | nopr18 | nopr20 | nopr40 | nopr80 =>
    simp only [Instr.wellFormed, inRange_bounds] at wf
    rw [Instr.opcode, pseudoCase_reserved _ _ _ (by omega)]
    rfl
  -- The zero opcode has no parameter byte, so this closes it.
  all_goals cases param
  case jmp => exact congrArg Host.Outcome.next (zeroNot_jump s true p)
  case jz => exact congrArg Host.Outcome.next (zeroNot_jump s s.flag p)
  case jnz =>
    simp only [exec, execJnz, ← zeroNot_jump, Bool.not_eq_true']
    rfl
  case jfe => exact congrArg Host.Outcome.next (zeroNot_jump s s.inx p)
  case ret => rfl
  case inp => exact pseudoCase_inp p s
  case out rx u =>
    have register : BitVec.ofNat 8 (s.advance.regNat rx.toNat) = s.getReg rx := by
      rw [regNat_toNat, BitVec.ofNat_toNat, BitVec.setWidth_eq]
      rfl
    simp only [Instr.opcode, pseudoCase, join_toNat_mod, register]
    rfl
  all_goals
    rw [exec_of_flagRegister s rfl, ← zeroOf_putNat]
    simp only [pseudoCase, resultOf, join_toNat_mod, join_toNat_div, regNat_toNat, advance_getReg, add8_toNat,
      sub8_toNat, xor8, or8, shl1_toNat, shr1_toNat, BitVec.toNat_xor, BitVec.toNat_or]
    rfl

/-- Settles O31: the tests of the pseudocode are the cases of the fetch, and its case is the dispatch. -/
theorem stepIsThePseudocode : Obligations.StepIsThePseudocode := by
  intro s running
  rw [step_running running]
  unfold pseudoStep
  rcases fetch_cases s with ⟨out, hf⟩ | ⟨bounds, zero, hf⟩ | ⟨top, nonzero, hf⟩ | ⟨lo, hi, nonzero, hf⟩
  · rw [hf, if_pos (by unfold inBounds at out; omega)]
    rfl
  · simp only [hf, if_neg (show ¬ (s.pc < 0 ∨ s.pc > 255) by omega), zero]
    rfl
  · have opcode : (s.mem.read s.pc.toNat).toNat ≠ 0 := by
      rw [top]
      exact fun e => nonzero (BitVec.eq_of_toNat_eq e)
    rw [hf, if_neg (by omega), if_neg opcode, if_pos (by omega)]
    rfl
  · have opcode : (s.mem.read s.pc.toNat).toNat ≠ 0 := fun e => nonzero (BitVec.eq_of_toNat_eq e)
    have next : (s.pc + 1).toNat = s.pc.toNat + 1 := by omega
    rw [hf, if_neg (by omega), if_neg opcode, if_neg (by omega), next]
    obtain ⟨byte, param⟩ := decodePair_bytes (s.mem.read (s.pc.toNat + 1)) nonzero
    have arm := pseudoCase_instr s (decodePair_wellFormed _ _) param
    rw [byte] at arm
    exact arm.symm

end Sys2Proof.Proofs.StepCycle
end

section
/-! PROOFS. INC, DEC, MOV, MOVC, LSL, LSR (spec/41_inc_dec_mov_shift.md): each is its encoding, the one operation that the
flag-setting instructions share, and the arithmetic of its result. -/

namespace Sys2Proof.Proofs.IncDecMovShift
open Sys2Proof.Machine Sys2Proof.Proofs.StateRules Sys2Proof.Proofs.Encoding Sys2Proof.Proofs.StepCycle

/-! ## What the instructions of two bytes share -/

/-- The two bytes of an instruction, with nothing after them (30_encoding.md R70). -/
theorem decode_opcode_parameter {i : Instr} {p : Byte} (wf : i.wellFormed = true) (param : i.parameter = some p) :
    decode [i.opcode, p] = .ok (i, []) := by
  have decoded := decodeOfEncode i [] wf
  rwa [encode, param] at decoded

/-- The same with the parameter byte written as its two nibbles (R82). -/
theorem decode_opcode_nibbles {i : Instr} {hi lo : Nibble} (wf : i.wellFormed = true)
    (param : i.parameter = some (joinNibbles hi lo)) :
    decode [i.opcode, BitVec.ofNat 8 (16 * hi.toNat + lo.toNat)] = .ok (i, []) := by
  rw [join_ofNat]
  exact decode_opcode_parameter wf param

/-- A flag-setting instruction completes with its result, written as a number. -/
theorem completesWriting_of_flagRegister {i : Instr} {s : State} {rd : RegIdx} {v : Nat} (hf : flagRegister i = some rd)
    (value : (resultOf i s).toNat = v) : CompletesWriting i s rd v :=
  completesWriting_of (exec_of_flagRegister s hf) value

/-! ## The six instructions -/

/-- Settles O1: the sum with 1 is 0 modulo 256 for no byte but 255. -/
theorem incAddsOneModulo256 : Obligations.IncAddsOneModulo256 := by
  intro s rx u
  have bound := (s.getReg rx).isLt
  refine ⟨decode_opcode_nibbles (i := .inc rx u) rfl rfl, completesWriting_of_flagRegister rfl ?_, by omega⟩
  exact add8_toNat _ 1

/-- Settles O2: subtracting 1 is adding 255 modulo 256, and that is 0 for no byte but 1. -/
theorem decSubtractsOneModulo256 : Obligations.DecSubtractsOneModulo256 := by
  intro s rx u
  have bound := (s.getReg rx).isLt
  refine ⟨decode_opcode_nibbles (i := .dec rx u) rfl rfl, completesWriting_of_flagRegister rfl ?_, by omega⟩
  rw [resultOf, sub8_toNat]
  rfl

/-- Settles O3: the result is the source itself. -/
theorem movCopiesRegister : Obligations.MovCopiesRegister :=
  fun _ rx ry => ⟨decode_opcode_nibbles (i := .mov rx ry) rfl rfl, completesWriting_of_flagRegister rfl rfl⟩

/-- Settles O4: the result is the constant itself, and the destination is not encoded. -/
theorem movcLoadsConstantIntoRegisterZero : Obligations.MovcLoadsConstantIntoRegisterZero :=
  fun _ k => ⟨decode_opcode_parameter (i := .movc k) rfl rfl, completesWriting_of_flagRegister rfl rfl⟩

/-- Settles O5: twice a byte is 0 modulo 256 for no bytes but 0 and 128. -/
theorem lslDoublesModulo256 : Obligations.LslDoublesModulo256 := by
  intro s rx u
  have bound := (s.getReg rx).isLt
  refine ⟨decode_opcode_nibbles (i := .lsl rx u) rfl rfl, completesWriting_of_flagRegister rfl ?_, by omega⟩
  exact shl1_toNat _

/-- Settles O6: half a byte, rounded down, is 0 for no bytes but 0 and 1. -/
theorem lsrHalves : Obligations.LsrHalves := by
  intro s rx u
  refine ⟨decode_opcode_nibbles (i := .lsr rx u) rfl rfl, completesWriting_of_flagRegister rfl ?_, by omega⟩
  exact shr1_toNat _

end Sys2Proof.Proofs.IncDecMovShift
end

section
/-! PROOFS. JMP, JZ, JNZ, JFE (spec/42_jumps.md R130 to R136): each is its encoding and the one operation that the jumps
share; a target is checked by the step after the jump. -/

namespace Sys2Proof.Proofs.Jumps
open Sys2Proof.Machine Sys2Proof.Proofs.ProgramMemory Sys2Proof.Proofs.Encoding Sys2Proof.Proofs.StepCycle
open Sys2Proof.Proofs.IncDecMovShift

/-! ## The target -/

theorem jumpTarget_toInt (a : Int) (p : Byte) : jumpTarget a p = a + p.toInt := by
  rw [jumpTarget, sdisp_toInt]

/-- From an address an instruction stands at, the target lies in `PCRANGE` (00_scope.md R5). -/
theorem jumpTarget_range {a : Int} (p : Byte) (lo : 0 ≤ a) (hi : a ≤ 254) :
    -128 ≤ jumpTarget a p ∧ jumpTarget a p ≤ 381 := by
  obtain ⟨lower, upper⟩ := sdisp_range p
  unfold jumpTarget
  omega

/-- Settles O58: the document's two branches are the two cases of the signed reading. -/
theorem jumpTargetByThreeOperations : Obligations.JumpTargetByThreeOperations := by
  refine fun a p => ⟨?_, jumpTarget_toInt a p, jumpTarget_range p⟩
  rw [jumpTarget]
  rcases sdisp_cases p with ⟨small, value⟩ | ⟨large, value⟩
  · rw [if_neg (Nat.not_lt.mpr small), value]
    omega
  · rw [if_pos large, value]
    omega

/-! ## The four instructions -/

/-- Settles O7: its condition is the constant 1. -/
theorem jmpAlwaysJumps : Obligations.JmpAlwaysJumps :=
  fun _ d => ⟨decode_opcode_parameter (i := .jmp d) rfl rfl, completesAt_of_branch (taken := true) rfl rfl⟩

/-- Settles O8: its condition is the flag. -/
theorem jzJumpsWhenFlagIsSet : Obligations.JzJumpsWhenFlagIsSet :=
  fun _ d => ⟨decode_opcode_parameter (i := .jz d) rfl rfl, completesAt_of_branch rfl rfl⟩

/-- Settles O9: its condition is the flag's complement. -/
theorem jnzJumpsWhenFlagIsClear : Obligations.JnzJumpsWhenFlagIsClear := by
  refine fun s d => ⟨decode_opcode_parameter (i := .jnz d) rfl rfl, completesAt_of_branch (taken := !s.flag) rfl ?_⟩
  simp only [Bool.not_eq_true']

/-- Settles O10: its condition is the latch. -/
theorem jfeJumpsWhenInputIsExhausted : Obligations.JfeJumpsWhenInputIsExhausted :=
  fun _ d => ⟨decode_opcode_parameter (i := .jfe d) rfl rfl, completesAt_of_branch rfl rfl⟩

/-! ## The step from the target -/

/-- At address 255 every step halts, and the opcode byte says why (40_step_cycle.md R92, R93). -/
theorem step_top {s : State} (running : s.status = .running) (top : s.pc = 255) :
    step s = .next (s.halt (if s.mem.read 255 = 0 then .undefinedOpcode else .missingParameter)) := by
  by_cases zero : s.mem.read 255 = 0
  · rw [if_pos zero]
    exact step_of_zero_opcode running (by unfold inBounds; omega) (by rw [top]; exact zero)
  · rw [if_neg zero]
    exact step_of_fetch_error running (fetch_top top zero)

/-- Below 255 the two bytes at the pointer decode, and the step runs what they decode to (R90, R96). -/
theorem step_below_top {s : State} (running : s.status = .running) (lo : 0 ≤ s.pc) (hi : s.pc ≤ 254) :
    ∃ i rest, decode [s.mem.read s.pc.toNat, s.mem.read (s.pc.toNat + 1)] = .ok (i, rest) ∧ step s = exec i s := by
  obtain ⟨rest, decoded⟩ := decode_two (s.mem.read s.pc.toNat) (s.mem.read (s.pc.toNat + 1))
  exact ⟨_, rest, decoded, (stepRunsDecodedInstruction s running).1 lo hi _ rest decoded⟩

/-- Settles O59: a jump leaves the machine running, so the next step is one of the three that a target can meet. -/
theorem jumpTargetsAreUnchecked : Obligations.JumpTargetsAreUnchecked := by
  intro s d running
  obtain ⟨-, t, jumped, target, cleared, -, -, status, -⟩ := jmpAlwaysJumps s d
  have running' : t.status = .running := status.trans running
  exact ⟨t, jumped, target, cleared, running', fun outside => (outOfBoundsPointerExhausts t running' outside).1,
    step_top running', step_below_top running'⟩

end Sys2Proof.Proofs.Jumps
end

section
/-! PROOFS. RET (spec/43_ret.md R150): its encoding, and the halt past itself. -/

namespace Sys2Proof.Proofs.Ret
open Sys2Proof.Machine Sys2Proof.Proofs.IncDecMovShift

theorem exec_ret (u : Byte) (s : State) : exec (.ret u) s = .next (s.advance.clearFlag.halt .halted) := rfl

/-- Settles O11: past the halt, RET's state is the advanced state with the flag cleared, and neither touches the rest. -/
theorem retHaltsPastItself : Obligations.RetHaltsPastItself := by
  refine fun s u => ⟨decode_opcode_parameter (i := .ret u) rfl rfl, _, exec_ret u s, halt_status _ _, ?_⟩
  simp

end Sys2Proof.Proofs.Ret
end

section
/-! PROOFS. ADD, SUB, XOR, OR (spec/44_add_sub_logic.md R155 to R159): each is its encoding, the one operation that the
flag-setting instructions share, and the arithmetic or the bits of its result. -/

namespace Sys2Proof.Proofs.AddSubLogic
open Sys2Proof.Machine Sys2Proof.Proofs.StateRules Sys2Proof.Proofs.StepCycle Sys2Proof.Proofs.IncDecMovShift

/-! ## The arithmetic instructions -/

/-- Settles O12: two bytes add up to less than 512, so 0 and 256 are the only sums that wrap to 0. -/
theorem addAddsModulo256 : Obligations.AddAddsModulo256 := by
  intro s rx ry
  have boundX := (s.getReg rx).isLt
  have boundY := (s.getReg ry).isLt
  refine ⟨decode_opcode_nibbles (i := .add rx ry) rfl rfl, completesWriting_of_flagRegister rfl ?_, by omega⟩
  exact add8_toNat _ _

/-- Settles O13: the difference of two bytes, taken from 256 up, is a multiple of 256 only when it is 256 itself. -/
theorem subSubtractsModulo256 : Obligations.SubSubtractsModulo256 := by
  intro s rx ry
  have boundX := (s.getReg rx).isLt
  have boundY := (s.getReg ry).isLt
  refine ⟨decode_opcode_nibbles (i := .sub rx ry) rfl rfl, completesWriting_of_flagRegister rfl ?_, ?_⟩
  · exact sub8_toNat _ _
  · rw [← BitVec.toNat_inj]
    omega

/-! ## The bitwise instructions -/

/-- A flag-setting instruction's next state holds the result in its register. -/
theorem getReg_of_flagRegister {i : Instr} {s t : State} {rd : RegIdx} (hf : flagRegister i = some rd)
    (h : exec i s = .next t) : t.getReg rd = resultOf i s := by
  rw [exec_of_flagRegister s hf] at h
  cases h
  rw [writeResult_getReg, if_pos rfl]

/-- Settles O14: the result is the exclusive or of the two bytes, as a number and in each bit. -/
theorem xorIsBitwiseExclusiveOr : Obligations.XorIsBitwiseExclusiveOr := by
  intro s rx ry
  refine ⟨decode_opcode_nibbles (i := .xor rx ry) rfl rfl, completesWriting_of_flagRegister rfl ?_, ?_, fun t h k => ?_⟩
  · exact BitVec.toNat_xor _ _
  · rw [Nat.xor_eq_zero_iff, BitVec.toNat_inj]
  · rw [getReg_of_flagRegister rfl h]
    exact BitVec.getLsbD_xor

/-- Settles O15: the result is the inclusive or of the two bytes, as a number and in each bit. -/
theorem orIsBitwiseInclusiveOr : Obligations.OrIsBitwiseInclusiveOr := by
  intro s rx ry
  refine ⟨decode_opcode_nibbles (i := .or rx ry) rfl rfl, completesWriting_of_flagRegister rfl ?_, ?_, fun t h k => ?_⟩
  · exact BitVec.toNat_or _ _
  · exact Nat.or_eq_zero_iff
  · rw [getReg_of_flagRegister rfl h]
    exact BitVec.getLsbD_or

end Sys2Proof.Proofs.AddSubLogic
end

section
/-! PROOFS. IN and OUT (spec/45_in_out.md R171 to R175): the two branches and the fault of IN, that an exhausted input
stays exhausted, and OUT. -/

namespace Sys2Proof.Proofs.InOut
open Sys2Proof.Machine Sys2Proof.Proofs.StateRules Sys2Proof.Proofs.IncDecMovShift Sys2Proof.Proofs.Jumps

/-! ## The cursor -/

theorem inAvail_true {s : State} : s.inAvail = true ↔ s.ic < s.input.length := decide_eq_true_iff

theorem inAvail_false {s : State} : s.inAvail = false ↔ s.input.length ≤ s.ic := by
  rw [State.inAvail, decide_eq_false_iff_not, Nat.not_lt]

/-- Whether a byte is available depends on the cursor and the input only (10_state.md R37). -/
theorem inAvail_congr {s t : State} (ic : t.ic = s.ic) (input : t.input = s.input) : t.inAvail = s.inAvail := by
  rw [State.inAvail, State.inAvail, ic, input]

/-! ## IN -/

/-- A register index up to 15 is read without loss from the whole parameter byte (30_encoding.md R74 (c)). -/
theorem inRegister_of_le {n : Byte} (small : n.toNat ≤ 15) : inRegister n = some (BitVec.ofNat 4 n.toNat) :=
  inRegister_some.mpr ⟨small, BitVec.ofNat_toNat 4 n⟩

/-- Settles O16: the byte at the cursor goes to the register named, and a register with another number is another
register. -/
theorem inTakesNextByte : Obligations.InTakesNextByte := by
  intro s n avail small
  obtain ⟨b, byte⟩ := inData_of_inAvail (inAvail_true.mpr avail)
  refine ⟨decode_opcode_parameter (i := .inp n) rfl rfl, _, exec_inp_take byte (inRegister_of_le small), ?_, ?_,
    rfl, rfl, rfl, rfl, rfl, rfl, rfl, fun _ => rfl⟩
  · rw [clearFlag_getReg, takeInput_getReg, getReg_setReg_same]
    exact byte.symm
  · intro r differ
    have other : r ≠ BitVec.ofNat 4 n.toNat := by
      rintro rfl
      exact differ (by rw [BitVec.toNat_ofNat]; omega)
    exact getReg_setReg_other s.advance b other

/-- Settles O17: with no byte at the cursor the parameter is not looked at. -/
theorem inWithoutByteSetsLatch : Obligations.InWithoutByteSetsLatch :=
  fun _ n atEnd => ⟨decode_opcode_parameter (i := .inp n) rfl rfl, _,
    exec_inp_empty n (inData_none.mpr (inAvail_false.mpr atEnd)),
    rfl, fun _ => rfl, rfl, rfl, rfl, rfl, rfl, rfl, fun _ => rfl⟩

/-- Settles O18: an index of 16 or more names no register. -/
theorem inFaultsWithoutRegister : Obligations.InFaultsWithoutRegister := by
  intro s n avail large
  obtain ⟨b, byte⟩ := inData_of_inAvail (inAvail_true.mpr avail)
  have fault := exec_inp_fault byte (inRegister_none.mpr large)
  exact ⟨fault, by rw [fault]; rfl⟩

/-! ## An exhausted input -/

/-- By the invariant the latch is set only with the cursor at the end of the input (10_state.md R28). -/
theorem inAvail_false_of_latch {s : State} (inv : s.Inv) (latched : s.inx = true) : s.inAvail = false := by
  obtain ⟨-, -, atEnd, -⟩ := inv
  exact inAvail_false.mpr (atEnd latched).ge

/-- With the latch set and no byte available an instruction keeps the latch and the cursor. -/
theorem exec_of_exhausted {i : Instr} {s t : State} (h : exec i s = .next t) (latched : s.inx = true)
    (empty : s.inAvail = false) : t.inx = true ∧ t.ic = s.ic := by
  rcases exec_input_cases h with ⟨-, ic, inx⟩ | ⟨-, avail, -⟩ | ⟨-, -, ic, inx⟩
  · exact ⟨inx.trans latched, ic⟩
  · rw [empty] at avail
    cases avail
  · exact ⟨inx, ic⟩

/-- So does a step, and since the input is fixed no byte becomes available (45_in_out.md R173, 20_memory.md R60). -/
theorem step_of_exhausted {s t : State} (h : step s = .next t) (latched : s.inx = true) (empty : s.inAvail = false) :
    t.inx = true ∧ t.inAvail = false ∧ t.ic = s.ic := by
  obtain ⟨-, ⟨reason, -, rfl⟩ | ⟨i, -, hx⟩⟩ := step_next_cases h
  · exact ⟨latched, empty, rfl⟩
  · obtain ⟨inx, ic⟩ := exec_of_exhausted hx latched empty
    exact ⟨inx, (inAvail_congr ic (step_mem_input h).2).trans empty, ic⟩

/-- The induction of R173 along a run. -/
theorem run_of_exhausted {s t : State} {trace : List Ports} (run : Runs s trace t) (latched : s.inx = true)
    (empty : s.inAvail = false) : t.inx = true ∧ t.inAvail = false ∧ t.ic = s.ic := by
  refine run.induct_on (P := fun u => u.inx = true ∧ u.inAvail = false ∧ u.ic = s.ic) ⟨latched, empty, rfl⟩ ?_
  intro u v ⟨latched', empty', ic⟩ last
  obtain ⟨latched'', empty'', ic'⟩ := step_of_exhausted last latched' empty'
  exact ⟨latched'', empty'', ic'.trans ic⟩

/-- Settles O44: the exhausted state at the start lasts along the run; in it IN finds no byte and JFE finds the latch
set. -/
theorem exhaustionIsPermanent : Obligations.ExhaustionIsPermanent := by
  intro s t trace inv latched run
  obtain ⟨latched', empty, ic⟩ := run_of_exhausted run latched (inAvail_false_of_latch inv latched)
  refine ⟨latched', empty, ic, fun n => ?_, fun d => ?_⟩
  · exact ⟨_, exec_inp_empty n (inData_none.mpr empty), fun _ => rfl, rfl, rfl⟩
  · have jump := (jfeJumpsWhenInputIsExhausted t d).2
    rwa [if_pos latched'] at jump

/-! ## OUT -/

theorem exec_out (rx : RegIdx) (u : Nibble) (s : State) :
    exec (.out rx u) s = .next (s.advance.emit (s.getReg rx)).clearFlag := rfl

/-- Settles O19: OUT's state is the advanced state with the register emitted and the flag cleared, and none of these
touches the rest. -/
theorem outAppendsRegister : Obligations.OutAppendsRegister :=
  fun s rx u => ⟨decode_opcode_nibbles (i := .out rx u) rfl rfl, _, exec_out rx u s,
    rfl, rfl, rfl, fun _ => rfl, rfl, rfl, rfl, rfl, fun _ => rfl⟩

end Sys2Proof.Proofs.InOut
end

section
/-! PROOFS. Opcode 0x00 and the opcodes 0x12 to 0xFF (spec/46_reserved_opcodes.md R185, R186): the halt in place, and the
no-op that all six NOPR rows share. -/

namespace Sys2Proof.Proofs.Reserved
open Sys2Proof.Machine

/-- Settles O20: the opcode byte decodes by itself, and the meaning of `und0` is the halt, which writes the status only. -/
theorem zeroOpcodeInstructionHalts : Obligations.ZeroOpcodeInstructionHalts :=
  fun s rest => ⟨decode_zero rest, show exec .und0 s = .next (s.halt .undefinedOpcode) from rfl⟩

/-- The mnemonic alone fixes what a NOPR does: its opcode byte and its parameter have no effect. -/
theorem exec_of_nopr {i : Instr} (s : State) (h : i.row.mnemonic = "NOPR") : exec i s = .next s.noOp := by
  cases i
  case nopr12 | nopr14 | nopr18 | nopr20 | nopr40 | nopr80 => rfl
  all_goals simp [Instr.row] at h

theorem completesAt_of_nopr {i : Instr} (s : State) (h : i.row.mnemonic = "NOPR") : CompletesAt i s (s.pc + 2) :=
  completesAt_of_noOp (exec_of_nopr s h)

/-- Every range of R78, and the rest after them, is a row of NOPR. -/
theorem decodeReserved_mnemonic (op p : Byte) : (decodeReserved op p).row.mnemonic = "NOPR" := by
  unfold decodeReserved
  repeat' split
  all_goals rfl

/-- An opcode byte from 0x12 on decodes with its parameter byte by the ranges of R78 alone. -/
theorem decode_reserved {op : Byte} (p : Byte) (rest : List Byte) (h : 0x12 ≤ op.toNat) :
    decode (op :: p :: rest) = .ok (decodeReserved op p, rest) := by
  have nonzero : op ≠ 0 := by
    rintro rfl
    exact absurd h (by decide)
  rw [decode_pair p rest nonzero, decodePair_reserved p h]

/-- Settles O21: the bytes decode to a NOPR row, and every NOPR row is the same no-op. -/
theorem reservedOpcodesDoNothing : Obligations.ReservedOpcodesDoNothing :=
  ⟨fun s op p reserved => ⟨decodeReserved op p, decode_reserved p [] reserved, decodeReserved_mnemonic op p,
      completesAt_of_nopr s (decodeReserved_mnemonic op p)⟩,
    fun s _ _ => ⟨completesAt_of_nopr s rfl, completesAt_of_nopr s rfl, completesAt_of_nopr s rfl,
      completesAt_of_nopr s rfl, completesAt_of_nopr s rfl, completesAt_of_nopr s rfl⟩⟩

end Sys2Proof.Proofs.Reserved
end

section
/-! PROOFS. The ends of a step (spec/60_exceptions.md R200 to R214): the four terminations and their causes, the one
fault and its cause, terminal states, and runs without a fault. -/

namespace Sys2Proof.Proofs.Exceptions
open Sys2Proof.Machine Sys2Proof.Proofs.StateRules Sys2Proof.Proofs.Encoding Sys2Proof.Proofs.InOut

/-! ## The bytes of an instruction that has a parameter -/

/-- Two bytes decode to an instruction with a parameter exactly when they are its own (30_encoding.md R75). -/
theorem decodePair_eq_iff {op p q : Byte} {i : Instr} (wf : i.wellFormed = true) (param : i.parameter = some q) :
    decodePair op p = i ↔ op = i.opcode ∧ p = q := by
  rcases eq_und0_or_decodePair wf with rfl | ⟨r, param', -, decoded⟩
  · cases param
  · obtain rfl : r = q := Option.some.inj (param'.symm.trans param)
    constructor
    · rintro rfl
      have nonzero : op ≠ 0 := by
        rintro rfl
        cases param
      exact ⟨(decodePair_opcode op p).symm, Option.some.inj ((decodePair_bytes p nonzero).2.symm.trans param)⟩
    · rintro ⟨rfl, rfl⟩
      exact decoded

/-! ## The four terminations -/

/-- RET is the only instruction of two bytes that changes the status (R200). -/
theorem exec_status_of_not_ret {i : Instr} {s t : State} (h : exec i s = .next t) (ne : i ≠ .und0)
    (notRet : ∀ u, i ≠ .ret u) : t.status = s.status := by
  rcases exec_next_cases h with ⟨hi, -⟩ | ⟨rd, v, -, rfl⟩ | ⟨c, d, -, -, rfl⟩ | ⟨u, hi, -⟩ | ⟨n, b, rd, -, -, -, rfl⟩ |
    ⟨n, -, -, rfl⟩ | ⟨rx, u, -, rfl⟩ | ⟨-, -, -, -, -, -, rfl⟩
  case inl => exact absurd hi ne
  case inr.inr.inl => rw [branch_eq]
  case inr.inr.inr.inl => exact absurd hi (notRet u)
  all_goals rfl

/-- The table of R200 in the priority of R207, with what each termination leaves, and the one step that ends none. -/
theorem step_termination_cases {s t : State} (h : step s = .next t) :
    (¬ inBounds s.pc ∧ t = s.halt .instructionsExhausted) ∨
    (inBounds s.pc ∧ s.mem.read s.pc.toNat = 0 ∧ t = s.halt .undefinedOpcode) ∨
    (s.pc = 255 ∧ s.mem.read 255 ≠ 0 ∧ t = s.halt .missingParameter) ∨
    (0 ≤ s.pc ∧ s.pc ≤ 254 ∧ s.mem.read s.pc.toNat = 0x0B ∧ t = s.advance.clearFlag.halt .halted) ∨
    (0 ≤ s.pc ∧ s.pc ≤ 254 ∧ s.mem.read s.pc.toNat ≠ 0 ∧ s.mem.read s.pc.toNat ≠ 0x0B ∧ t.status = .running) := by
  rcases step_next_by_address h with out | zero | top | ⟨lo, hi, nonzero, hx⟩
  · exact .inl out
  · exact .inr (.inl zero)
  · exact .inr (.inr (.inl top))
  · by_cases ret : s.mem.read s.pc.toNat = 0x0B
    · rw [(decodePair_eq_iff (i := .ret _) rfl rfl).mpr ⟨ret, rfl⟩] at hx
      cases hx
      exact .inr (.inr (.inr (.inl ⟨lo, hi, ret, rfl⟩)))
    · have notRet : ∀ u, decodePair (s.mem.read s.pc.toNat) (s.mem.read (s.pc.toNat + 1)) ≠ .ret u :=
        fun u e => ret ((decodePair_eq_iff rfl rfl).mp e).1
      have status := exec_status_of_not_ret hx (decodePair_ne_und0 _ nonzero) notRet
      exact .inr (.inr (.inr (.inr ⟨lo, hi, nonzero, ret, status.trans (step_next_cases h).1⟩)))

/-- A termination changes the status only, but that RET has advanced the pointer and cleared the flag (R212, D6). -/
theorem step_terminal_frame {s t : State} (h : step s = .next t) (terminal : t.status.isTerminal = true) :
    (∀ r, t.getReg r = s.getReg r) ∧ t.inx = s.inx ∧ t.ic = s.ic ∧ t.out = s.out ∧
      t.pc = (if t.status = .halted then s.pc + 2 else s.pc) ∧
      t.flag = if t.status = .halted then false else s.flag := by
  rcases step_termination_cases h with ⟨-, rfl⟩ | ⟨-, -, rfl⟩ | ⟨-, -, rfl⟩ | ⟨-, -, -, rfl⟩ | ⟨-, -, -, -, running⟩
  case inr.inr.inr.inr =>
    rw [running] at terminal
    cases terminal
  all_goals exact ⟨fun _ => rfl, rfl, rfl, rfl, rfl, rfl⟩

/-- Settles O33: the causes exclude each other, and each ends the step as its row of the table says. -/
theorem terminationsHaveTheirCauses : Obligations.TerminationsHaveTheirCauses := by
  intro s t _ h
  rcases step_termination_cases h with ⟨out, rfl⟩ | ⟨bounds, zero, rfl⟩ | ⟨top, nonzero, rfl⟩ | ⟨lo, hi, ret, rfl⟩ |
    ⟨lo, hi, nonzero, notRet, running⟩
  · exact ⟨iff_of_true rfl (by omega), iff_of_false nofun fun ⟨lo, hi, _⟩ => out ⟨lo, hi⟩,
      iff_of_false nofun (by omega), iff_of_false nofun (by omega), nofun, step_terminal_frame h⟩
  · have atTop : s.pc = 255 → s.mem.read 255 = 0 := fun top => by rwa [top] at zero
    have notRet : s.mem.read s.pc.toNat ≠ 0x0B := by rw [zero]; decide
    exact ⟨iff_of_false nofun (by omega), iff_of_true rfl ⟨bounds.1, bounds.2, zero⟩,
      iff_of_false nofun fun ⟨top, nonzero⟩ => nonzero (atTop top), iff_of_false nofun fun ⟨_, _, ret⟩ => notRet ret,
      nofun, step_terminal_frame h⟩
  · have nonzero' : s.mem.read s.pc.toNat ≠ 0 := by rwa [top]
    exact ⟨iff_of_false nofun (by omega), iff_of_false nofun fun ⟨_, _, zero⟩ => nonzero' zero,
      iff_of_true rfl ⟨top, nonzero⟩, iff_of_false nofun (by omega), nofun, step_terminal_frame h⟩
  · have nonzero : s.mem.read s.pc.toNat ≠ 0 := by rw [ret]; decide
    exact ⟨iff_of_false nofun (by omega), iff_of_false nofun fun ⟨_, _, zero⟩ => nonzero zero,
      iff_of_false nofun (by omega), iff_of_true rfl ⟨lo, hi, ret⟩, nofun, step_terminal_frame h⟩
  · rw [running]
    exact ⟨iff_of_false nofun (by omega), iff_of_false nofun fun ⟨_, _, zero⟩ => nonzero zero,
      iff_of_false nofun (by omega), iff_of_false nofun fun ⟨_, _, ret⟩ => notRet ret, nofun, nofun⟩

/-! ## The one fault -/

theorem exec_fault_iff {i : Instr} {s : State} {n : Byte} :
    exec i s = .fault (.inRegIndex n) ↔ i = .inp n ∧ 16 ≤ n.toNat ∧ s.inAvail = true := by
  constructor
  · intro h
    rcases exec_total i s with ⟨t, next⟩ | ⟨m, rfl, avail, large, fault⟩
    · rw [next] at h
      cases h
    · rw [fault] at h
      cases h
      exact ⟨rfl, large, avail⟩
  · rintro ⟨rfl, large, avail⟩
    exact (inFaultsWithoutRegister s n (inAvail_true.mp avail) large).1

/-- A step faults exactly when the instruction it runs is an IN that finds a byte and no register (R205). -/
theorem step_fault_iff {s : State} {n : Byte} :
    step s = .fault (.inRegIndex n) ↔ s.current = some (.inp n) ∧ 16 ≤ n.toNat ∧ s.inAvail = true := by
  by_cases running : s.status = .running
  · rw [step_running running, current_some]
    cases hf : s.fetch with
    | error reason => simp
    | ok i => simp [running, exec_fault_iff]
  · simp [step_terminal running, current_some, running]

/-- In a running state there is no other outcome than a next state and that fault (R209). -/
theorem step_total {s : State} (running : s.status = .running) :
    (∃ t, step s = .next t) ∨ ∃ n, step s = .fault (.inRegIndex n) := by
  rw [step_running running]
  cases s.fetch with
  | error reason => exact .inl ⟨_, rfl⟩
  | ok i => exact (exec_total i s).imp_right fun ⟨n, _, _, _, fault⟩ => ⟨n, fault⟩

/-- An IN is run where its two bytes stand. -/
theorem current_inp_iff {s : State} {n : Byte} (running : s.status = .running) :
    s.current = some (.inp n) ↔
      0 ≤ s.pc ∧ s.pc ≤ 254 ∧ s.mem.read s.pc.toNat = 0x10 ∧ s.mem.read (s.pc.toNat + 1) = n := by
  rw [current_some]
  rcases fetch_cases s with ⟨out, hf⟩ | ⟨-, zero, hf⟩ | ⟨top, -, hf⟩ | ⟨lo, hi, -, hf⟩
  · simp [hf]
    omega
  · simp [hf, zero]
  · simp [hf, top]
  · simp [hf, running, lo, hi, decodePair_eq_iff (i := .inp n) rfl rfl, Instr.opcode]

/-- Settles O35: the one outcome besides a next state is the fault, whose cause is read off the two bytes at the
pointer. -/
theorem onlyInFaultsAndNothingWaits : Obligations.OnlyInFaultsAndNothingWaits := by
  refine fun s running => ⟨step_total running, fun n => ?_⟩
  simp only [step_fault_iff, current_inp_iff running, inAvail_true, and_assoc]

/-- A state that meets what R206 asks of a program takes its step, and one that does not is at the fault. -/
theorem inIndexValid_iff (s : State) : s.inIndexValid ↔ (s.status = .running → ∃ t, step s = .next t) := by
  constructor
  · intro valid running
    refine (step_total running).resolve_right ?_
    rintro ⟨n, fault⟩
    obtain ⟨current, large, avail⟩ := step_fault_iff.mp fault
    have small := valid n current avail
    omega
  · intro steps n current avail
    obtain ⟨t, next⟩ := steps (current_some.mp current).1
    by_contra large
    have fault := step_fault_iff.mpr ⟨current, Nat.lt_of_not_le large, avail⟩
    rw [next] at fault
    cases fault

/-- Settles O49, state by state of the run. -/
theorem safeRunMeansValidInIndices : Obligations.SafeRunMeansValidInIndices :=
  fun _ => forall₃_congr fun _ t _ => (inIndexValid_iff t).symm

/-! ## Terminal states -/

/-- Settles O34: it is the law of `step` for such a state. -/
theorem terminalStateHasNoStep : Obligations.TerminalStateHasNoStep :=
  fun _ => step_terminal

end Sys2Proof.Proofs.Exceptions
end

section
/-! PROOFS. Reset, the ports and the hazards of programs (spec/70_reset_and_hazards.md R230 to R241). -/

namespace Sys2Proof.Proofs.ResetAndHazards
open Sys2Proof.Machine Sys2Proof.Proofs.StepCycle Sys2Proof.Proofs.Streams Sys2Proof.Proofs.Jumps

/-! ## Reset -/

/-- Settles O23: reset leaves the pointer at 0 and the core running, and keeps the image. -/
theorem firstStepFetchesFromZero : Obligations.FirstStepFetchesFromZero := by
  intro s
  have window : s.applyReset.fetchWindow = [s.mem.read 0, s.mem.read 1] :=
    fetchWindow_pair (s := s.applyReset) (Int.le_refl 0) (show (0 : Int) ≤ 254 by decide)
  refine ⟨rfl, window, fun i rest decoded => ?_⟩
  rw [← window] at decoded
  exact step_of_decode rfl decoded

/-! ## The ports -/

/-- Settles O51: the input side by whether the step takes a byte, the output side as `step_out` says. -/
theorem portsCarryTheStreams : Obligations.PortsCarryTheStreams := by
  intro s t h
  rcases step_takes_cases h with ⟨b, takes, byte, ic⟩ | ⟨keeps, ic⟩
  · refine ⟨by simp [ports, takes, ic], fun _ => ⟨inData_some byte, b, byte, byte⟩, step_out h⟩
  · exact ⟨by simp [ports, keeps, ic], fun takes => by simp [ports, keeps] at takes, step_out h⟩

/-! ## The flag -/

/-- Settles O39: the instruction cleared the flag, and JZ and JNZ go by it. -/
theorem flagLivesForOneInstruction : Obligations.FlagLivesForOneInstruction := by
  intro i s t d h unset ne
  have clear := exec_flag_of_no_flagRegister h ne unset
  have jz := (jzJumpsWhenFlagIsSet t d).2
  have jnz := (jnzJumpsWhenFlagIsClear t d).2
  simp only [clear] at jz jnz
  exact ⟨jz, jnz⟩

end Sys2Proof.Proofs.ResetAndHazards
end
